-- ==== Sys2Proof/Word.lean ====
section
/-! DEFINITION. The word types of the do-core1 CORE block. Every register, address and instruction word is an
unsigned 32-bit value (spec/00_scope.md R7, R9, R10, R15), so XLEN = ADDR_WIDTH = ILEN = 32 are said by these types;
a memory location is an unsigned 8-bit value (spec/10_state.md R30). -/

namespace Sys2Proof

/-- A register value, a memory address or an instruction word: 32 bits, unsigned, bit 0 least significant (R7, R9, R10, R14). -/
abbrev Word := BitVec 32

/-- One memory location (R30, R50). -/
abbrev Byte := BitVec 8

/-- The 5-bit op0 or op1 field of an instruction word: an unsigned register index (R71, R73). -/
abbrev RegIdx := BitVec 5

/-- The 6-bit opcode tag, bits [5:0] of an instruction word (R71). -/
abbrev Tag := BitVec 6

end Sys2Proof
end

