-- ==== Sys2Proof/Config.lean ====
section
/-! DEFINITION. The implementation parameters of spec/00_scope.md section 4, as plain data: what is fixed when the block
is constructed (R13). Their values on this hardware stand in Sys2Proof/Machine/Hardware.lean. XLEN (R7), ADDR_WIDTH (R9)
and ILEN (R10) have one value each, 32, and are said by the types of Sys2Proof/Word.lean. The block leaves no value open
(spec/93_implementation_defined.md section 1: nothing is modelled as `any value`), so there is no free value here. -/

namespace Sys2Proof

/-- The closed enumeration of opcodes (spec/30_encoding.md R75). `LD` and `ST` are spellings of `ldw` and `stw` (R148). -/
inductive OpCode where
  | ldw
  | stw
  | add
  | xor
  deriving DecidableEq, Repr

/-- OPCODE_TAGS: the 6-bit tag of each opcode; a tag that is none of the four maps to no opcode (R12, R75). -/
structure OpcodeTags where
  ldw : Tag
  stw : Tag
  add : Tag
  xor : Tag
  deriving DecidableEq, Repr

/-- The configuration of a block (R6, R8, R11, R12, R13). -/
structure Config where
  /-- REG_CEILING, the highest legal register index (R6). -/
  regCeiling : Nat
  /-- MEM_SIZE, the memory size in bytes (R8). -/
  memSize : Nat
  /-- LOADSTORE_ENABLED (R11, R101). -/
  loadStoreEnabled : Bool
  /-- OPCODE_TAGS (R12). -/
  tags : OpcodeTags
  deriving DecidableEq, Repr

/-- N = REG_CEILING + 1, the number of registers (R6). -/
def Config.regCount (c : Config) : Nat := c.regCeiling + 1

end Sys2Proof
end

