-- ==== Sys2Proof/Machine/Hardware.lean ====
section
/-! DEFINITION. The values this hardware takes for its parameters (the "this hardware" column of spec/00_scope.md
section 4), and its reset contents (spec/10_state.md R43, R44). -/

namespace Sys2Proof.Machine

/-- REG_CEILING = 31, the canonical configuration (R6; decision D2). -/
def hwRegCeiling : Nat := 31

/-- MEM_SIZE = 4096 bytes (R8; decision D3). -/
def hwMemSize : Nat := 4096

/-- LOADSTORE_ENABLED = true (R11; decision D6). -/
def hwLoadStoreEnabled : Bool := true

/-- OPCODE_TAGS (R12, R75). PRESUMED: the tags of LDW, STW and XOR are the spec's decision D5, from general knowledge and
not from its source; ADD = 0x02 is derived from the word 0x1842. Log entry 2, unsafe. -/
def hwTags : OpcodeTags := { ldw := 0x00#6, stw := 0x01#6, add := 0x02#6, xor := 0x03#6 }

/-- The configuration of this hardware. -/
def hwConfig : Config :=
  { regCeiling := hwRegCeiling, memSize := hwMemSize, loadStoreEnabled := hwLoadStoreEnabled, tags := hwTags }

/-- The seed of register i, `i * 0x10` (R43; normative by spec/90_conflicts.md C6). -/
def seed (i : Nat) : Word := BitVec.ofNat 32 (i * 0x10)

/-- The register file right after `construct`: n registers, each at its seed (R43). -/
def seedRegs (n : Nat) : List Word := (List.range n).map seed

/-- What a memory byte holds that no store has written since `construct`: 0x00 (R44). -/
def unwrittenByte : Byte := 0x00#8

end Sys2Proof.Machine
end

