-- ==== Sys2Proof/Syntax.lean ====
section
/-! DEFINITION. The instructions: one constructor for each row of spec/opcode_table.json. Each carries the two register
indices of the single format, op0 first (spec/30_encoding.md R71, R72, R73). -/

namespace Sys2Proof

/-- A decoded instruction {opcode, op0, op1} (R72, R81). -/
inductive Instr where
  /-- `LDW r<op0>, r<op1>`: load the byte at the address in op1 into op0 (R140). -/
  | ldw (op0 op1 : RegIdx)
  /-- `STW r<op0>, r<op1>`: store the low byte of op0 at the address in op1 (R145). -/
  | stw (op0 op1 : RegIdx)
  /-- `ADD r<op0>, r<op1>`: checked unsigned addition into op0 (R120). -/
  | add (op0 op1 : RegIdx)
  /-- `XOR r<op0>, r<op1>`: bitwise exclusive-or into op0 (R125). -/
  | xor (op0 op1 : RegIdx)
  deriving DecidableEq, Repr

/-- The opcode of an instruction. -/
def Instr.opcode : Instr → OpCode
  | .ldw _ _ => .ldw
  | .stw _ _ => .stw
  | .add _ _ => .add
  | .xor _ _ => .xor

/-- The first operand index (R71, R72). -/
def Instr.op0 : Instr → RegIdx
  | .ldw a _ => a
  | .stw a _ => a
  | .add a _ => a
  | .xor a _ => a

/-- The second operand index (R71, R72). -/
def Instr.op1 : Instr → RegIdx
  | .ldw _ b => b
  | .stw _ b => b
  | .add _ b => b
  | .xor _ b => b

end Sys2Proof
end

