-- ==== Sys2Proof/Machine/Result.lean ====
section
/-! DEFINITION. What a transaction answers its caller: the closed error taxonomy (spec/60_exceptions.md R160 to R167) and
the two forms of a result (spec/00_scope.md R17). -/

namespace Sys2Proof

/-- The six errors, with their payloads, in the order of R160. -/
inductive Error where
  /-- `decode`, `step`: bits [5:0] have no opcode; the payload is those bits (R161). -/
  | invalidOpCode (tag : Tag)
  /-- `execute`, `step`: the configuration lacks the decoded opcode (R162). -/
  | unsupportedOpCode (op : OpCode)
  /-- `decode`, `step`, `register read`: op0, or the index read, exceeds the ceiling (R163). -/
  | op0OutOfRange
  /-- `decode`, `step`: op1 exceeds the ceiling (R164). -/
  | op1OutOfRange
  /-- `execute`, `step` of ADD: the unsigned sum of the two operands does not fit in 32 bits (R165, R122). -/
  | additionOverflow (lhs rhs : Word)
  /-- `execute`, `step` of LDW, STW: the address is outside the memory (R166). -/
  | memoryOverflow (address : Word)
  deriving DecidableEq, Repr

/-- The value v of an `Ok(v)` result (R17, R18). -/
inductive Value where
  /-- `()`, the answer of `execute` and `step` (R17). -/
  | unit
  /-- The initialised block, the answer of `construct` (R18). -/
  | block
  /-- The decoded instruction, the answer of `decode` (R20). -/
  | instruction (i : Instr)
  /-- A register's value, the answer of `register read` (R22). -/
  | word (v : Word)
  deriving DecidableEq, Repr

/-- Every transaction ends in exactly one of two results (R17). -/
inductive Result where
  | ok (v : Value)
  | err (e : Error)
  deriving DecidableEq, Repr

namespace Machine

/-- The numeric code of an error, 1 to 6 (R160; the numbering is the spec's decision D9). -/
def errorCode : Error → Nat
  | .invalidOpCode _ => 1
  | .unsupportedOpCode _ => 2
  | .op0OutOfRange => 3
  | .op1OutOfRange => 4
  | .additionOverflow _ _ => 5
  | .memoryOverflow _ => 6

/-- The numeric code of a result; 0 means `Ok` (R160, D9). -/
def resultCode : Result → Nat
  | .ok _ => 0
  | .err e => errorCode e

end Machine

end Sys2Proof
end

