-- ==== Sys2Proof/WellFormed.lean ====
section
/-! DEFINITION. What a legal configuration is (spec/00_scope.md R6, R8; spec/30_encoding.md R75) and what a validated
instruction is under one (R81). Decidable propositions, so that a check can be run. -/

namespace Sys2Proof

/-- The three constraints of R75 on OPCODE_TAGS: the map is injective, ADD is 0x02, and 0x3F is unmapped. -/
abbrev OpcodeTags.WellFormed (t : OpcodeTags) : Prop :=
  t.add = 0x02#6 ∧
  [t.ldw, t.stw, t.add, t.xor].Nodup ∧
  0x3F#6 ∉ [t.ldw, t.stw, t.add, t.xor]

/-- The legal values of REG_CEILING: 31, or 7 for the 8-register variant (R6). -/
abbrev Config.LegalCeiling (n : Nat) : Prop := n = 31 ∨ n = 7

/-- The legal values of MEM_SIZE: 1 to 2^32 (R8). -/
abbrev Config.LegalMemSize (n : Nat) : Prop := 1 ≤ n ∧ n ≤ 2 ^ 32

/-- A configuration whose every parameter has a legal value (the table of spec/00_scope.md section 4). -/
abbrev Config.WellFormed (c : Config) : Prop :=
  Config.LegalCeiling c.regCeiling ∧ Config.LegalMemSize c.memSize ∧ c.tags.WellFormed

/-- A register index within the ceiling (R35, R74). -/
abbrev Config.RegInRange (c : Config) (r : RegIdx) : Prop := r.toNat ≤ c.regCeiling

/-- A validated instruction: both operand indices within the ceiling (R81, R102). -/
abbrev Instr.WellFormed (c : Config) (i : Instr) : Prop :=
  c.RegInRange i.op0 ∧ c.RegInRange i.op1

end Sys2Proof
end

