-- ==== Sys2Proof/Decode.lean ====
section
/-! DEFINITION. Decoding and encoding (spec/30_encoding.md R70 to R83). Decoding is total on all 2^32 words, and a word it
does not accept is rejected by name, in the order of R74. -/

namespace Sys2Proof

/-- The opcode map: the opcode a tag stands for, or none for an unmapped tag (R75, R76). -/
def OpcodeTags.lookup (m : OpcodeTags) (t : Tag) : Option OpCode :=
  if t = m.ldw then some .ldw
  else if t = m.stw then some .stw
  else if t = m.add then some .add
  else if t = m.xor then some .xor
  else none

/-- The tag of an opcode (R75, R83). -/
def OpcodeTags.tagOf (m : OpcodeTags) : OpCode → Tag
  | .ldw => m.ldw
  | .stw => m.stw
  | .add => m.add
  | .xor => m.xor

/-- tag = word[5:0] (R71). -/
def tagField (w : Word) : Tag := w.extractLsb' 0 6

/-- op0 = word[10:6] (R71). -/
def op0Field (w : Word) : RegIdx := w.extractLsb' 6 5

/-- op1 = word[15:11] (R71). -/
def op1Field (w : Word) : RegIdx := w.extractLsb' 11 5

/-- Instruction{opcode, op0, op1} (R74 step 4). -/
def mkInstr : OpCode → RegIdx → RegIdx → Instr
  | .ldw, a, b => .ldw a b
  | .stw, a, b => .stw a b
  | .add, a, b => .add a b
  | .xor, a, b => .xor a b

/-- `decode(word)`, its checks in the normative order of R74. Bits [31:16] are never read (R77). -/
def decode (c : Config) (w : Word) : Except Error Instr :=
  match c.tags.lookup (tagField w) with
  | none => .error (.invalidOpCode (tagField w))
  | some op =>
    if (op0Field w).toNat > c.regCeiling then .error .op0OutOfRange
    else if (op1Field w).toNat > c.regCeiling then .error .op1OutOfRange
    else .ok (mkInstr op (op0Field w) (op1Field w))

/-- `encode(opcode, op0, op1) = tag | (op0 << 6) | (op1 << 11)`, bits [31:16] zero (R83, decision D18). -/
def encode (m : OpcodeTags) (i : Instr) : Word :=
  (m.tagOf i.opcode).setWidth 32 ||| (i.op0.setWidth 32 <<< 6) ||| (i.op1.setWidth 32 <<< 11)

/-- The instruction word that spec/opcode_table.json numbers w on nbits bits; the bits above nbits are 0. The block takes
its words as 32-bit values, so no byte order enters (R59, decision D15). -/
def tableWord (nbits w : Nat) : Word := BitVec.ofNat 32 (w % 2 ^ nbits)

/-- The instruction this hardware decodes from a table word, none where it refuses. -/
def decodeTableWord (nbits w : Nat) : Option Instr :=
  match decode Machine.hwConfig (tableWord nbits w) with
  | .ok i => some i
  | .error _ => none

end Sys2Proof
end

