-- ==== Sys2Proof/Machine/State.lean ====
section
/-! DEFINITION. The state. The block's architectural state is the pair (x, mem) and nothing else (spec/10_state.md R30).
The other fields are the MODEL's own: the parameters the block was constructed with (R13), its lifecycle (R30, R179), the
transactions its caller has still to make and the last answer it gave (spec/00_scope.md R17, R18, R28). -/

namespace Sys2Proof.Machine

/-- Memory contents: the (address, byte) pairs that differ from what an unwritten byte reads as, addresses strictly rising. -/
abbrev Memory := List Host.Cell

/-- {constructed} or {dropped} (R30, R179, spec/70_reset_and_hazards.md R197). -/
inductive Phase where
  | constructed
  | dropped
  deriving DecidableEq, Repr

/-- What the host may do to the block (spec/00_scope.md R18, R28); it has no other move. -/
inductive Transaction where
  /-- `construct(REG_CEILING, MEM_SIZE)` (R19, R190). -/
  | construct (regCeiling memSize : Nat)
  /-- `decode(word)` (R20). -/
  | decode (word : Word)
  /-- `execute(insn)` (R21). -/
  | execute (i : Instr)
  /-- `register read(index)`; the index is a 32-bit value (R22, R34). -/
  | registerRead (index : Word)
  /-- `step(word)` (R23, R105). -/
  | step (word : Word)
  /-- Discard the block (R28, R197). -/
  | drop
  deriving DecidableEq, Repr

/-- Why the machine is stuck. No error of the block is a fault: an error is a transaction's result, and the block goes on (R106). -/
inductive Fault where
  /-- Raised by `step` for a transaction other than `construct` on a dropped block: there is no block to take it (R179, R197).
  Safe: the model stops where nothing exists that could answer. -/
  | noBlock
  deriving DecidableEq, Repr

/-- Why a transaction has no meaning. -/
inductive Refusal where
  /-- Raised by exec's arm of an instruction that has no meaning yet; none is left. Safe. -/
  | notModelled (mnemonic : String)
  /-- Raised by an instruction's meaning when an operand index exceeds the ceiling: the block gives `execute` of such a value no
  meaning (spec/40_dispatch.md R102, decision D12). It cannot happen under REG_CEILING = 31. Safe. -/
  | unvalidatedInstruction
  /-- Raised by `construct` with a ceiling or a memory size outside the legal values (R6, R8). Safe. -/
  | illegalConfiguration
  deriving DecidableEq, Repr

/-- The machine. `x` and `mem` are the block's state; the rest is the model's own and no instruction reads or writes it but
for `config`, which is read as a parameter, and `result`, which is written only. -/
structure State where
  /-- The register file x[0] to x[REG_CEILING], each an unsigned 32-bit value (R31). -/
  x : List Word
  /-- The memory bytes mem[0] to mem[MEM_SIZE - 1] (R50). -/
  mem : Memory
  /-- The configuration the block was constructed with; a parameter, not architectural state (R13). -/
  config : Config
  /-- Whether the block exists (R179, R197). -/
  phase : Phase
  /-- The host's transactions still to come, the next one first (R25, R198). -/
  pending : List Transaction
  /-- What the host got back from its last transaction; none after it dropped the block (R17, R28). The block itself latches no
  error (R41, R172), and no transaction reads this. -/
  result : Option Result
  deriving DecidableEq, Repr

/-- The state `construct` creates under a configuration: every register at its seed, every memory byte zero (R190, R43, R44),
and the initialised block as its answer (R18). -/
def State.constructed (c : Config) : State :=
  { x := seedRegs c.regCount, mem := [], config := c, phase := .constructed, pending := [], result := some (.ok .block) }

/-- The machine right after reset: this hardware, constructed (R190, R192); it waits for the caller's first transaction (R191). -/
def State.reset : State := State.constructed hwConfig

end Sys2Proof.Machine
end

