-- ==== Sys2Proof/Machine/Ops.lean ====
section
/-! DEFINITION. The named operations: registers, memory bytes, the memory primitives, and the two ways a transaction ends.
The block has no trap (spec/60_exceptions.md R170): where another machine takes an exception, this one answers an error and
leaves its state as it found it, which is `raise`, the one shared operation for all six errors. There is no return from it
(R172): the next transaction runs as any other. -/

namespace Sys2Proof.Machine

/-! ## Registers (spec/10_state.md R31 to R35) -/

/-- x[n]. No register is hardwired (R32). An index beyond the file is never read by a transaction (R35), and gives 0 here. -/
def State.reg (s : State) (n : Nat) : Word := s.x.getD n 0#32

/-- x[n] <- v. An index beyond the file is never written by a transaction (R35), and changes nothing here. -/
def State.writeReg (s : State) (n : Nat) (v : Word) : State := { s with x := s.x.set n v }

/-! ## Memory bytes (spec/20_memory.md R50) -/

/-- mem[a]; an address that is not listed holds what no store has written (R44). -/
def Memory.read : Memory → Nat → Byte
  | [], _ => unwrittenByte
  | (a', b) :: m, a => if a' = a then b else Memory.read m a

/-- The cells that hold byte b at address a: none where b is what an unlisted address reads as. -/
def Memory.cell (a : Nat) (b : Byte) : Memory := if b = unwrittenByte then [] else [(a, b)]

/-- mem[a] <- b, in the canonical form. -/
def Memory.write : Memory → Nat → Byte → Memory
  | [], a, b => Memory.cell a b
  | (a', b') :: m, a, b =>
    if a < a' then Memory.cell a b ++ (a', b') :: m
    else if a = a' then Memory.cell a b ++ m
    else (a', b') :: Memory.write m a b

/-- The canonical form from an address on: addresses strictly rising, the first at least lo, and no listed byte equal to what
an unlisted address reads as. -/
def Memory.wfFrom (lo : Nat) : Memory → Bool
  | [] => true
  | (a, b) :: m => decide (lo ≤ a) && decide (b ≠ unwrittenByte) && Memory.wfFrom (a + 1) m

/-- The canonical form of a memory. -/
def Memory.wf (m : Memory) : Bool := Memory.wfFrom 0 m

/-- mem[a] of a state. -/
def State.byte (s : State) (a : Nat) : Byte := s.mem.read a

/-- The state with its memory replaced. -/
def State.withMem (s : State) (m : Memory) : State := { s with mem := m }

/-! ## The memory primitives (R54 to R57) -/

/-- The bound check: an address is in bounds exactly when it is below MEM_SIZE; MEM_SIZE itself is not (R56). The address is
the full 32-bit value (R57, decision D4). -/
def inBounds (s : State) (addr : Word) : Bool := decide (addr.toNat < s.config.memSize)

/-- `MemRead(addr, 1)` (R54). -/
def memRead (s : State) (addr : Word) : Except Error Byte :=
  if inBounds s addr then .ok (s.byte addr.toNat) else .error (.memoryOverflow addr)

/-- `MemWrite(addr, 1, v)` (R55). -/
def memWrite (s : State) (addr : Word) (v : Byte) : Except Error State :=
  if inBounds s addr then .ok (s.withMem (s.mem.write addr.toNat v)) else .error (.memoryOverflow addr)

/-! ## How a transaction ends (spec/00_scope.md R16, R17) -/

/-- The state with a transaction's result handed to the caller. -/
def State.answer (s : State) (r : Result) : State := { s with result := some r }

/-- The transaction completes with a result, and the block goes on. -/
def respond (r : Result) (s : State) : Host.Outcome State Fault Refusal := .next (s.answer r)

/-- `raise E(info)`: the transaction ends with the error as its result, and no register and no memory byte changes
(R16, R170). -/
def raise (e : Error) (s : State) : Host.Outcome State Fault Refusal := respond (.err e) s

/-- The transaction ends with `Ok(())`. -/
def complete (s : State) : Host.Outcome State Fault Refusal := respond (.ok .unit) s

end Sys2Proof.Machine
end

