-- ==== Sys2Proof/Machine/Operands.lean ====
section
/-! DEFINITION. The operand forms and what every `execute` checks first. The only operand form is "register"
(spec/30_encoding.md R73); LDW and STW use a register's value as an address (spec/42_load_store.md R141). -/

namespace Sys2Proof.Machine

/-- The value of a register operand (R73). -/
def regOperand (s : State) (r : RegIdx) : Word := s.reg r.toNat

/-- The effective address of LDW and STW: the value of register op1, with no offset and no truncation (R141, R57). -/
def effectiveAddress (s : State) (op1 : RegIdx) : Word := regOperand s op1

/-- x[r] <- v for a register operand. -/
def writeOperand (s : State) (r : RegIdx) (v : Word) : State := s.writeReg r.toNat v

/-- `zext_32(b)` (spec/00_scope.md R15, R142). -/
def zext32 (b : Byte) : Word := b.setWidth 32

/-- `low_byte(v)`, bits [7:0] (R15, R146). -/
def lowByte (v : Word) : Byte := v.extractLsb' 0 8

/-- `implemented(op)`: ADD and XOR always, LDW and STW exactly when LOADSTORE_ENABLED (spec/40_dispatch.md R101). -/
def implemented (c : Config) : OpCode → Bool
  | .add => true
  | .xor => true
  | .ldw => c.loadStoreEnabled
  | .stw => c.loadStoreEnabled

/-- What `execute` does before an instruction's own body: it is defined for validated operands only (R102), and it raises
`UnsupportedOpCode` before any register is read (R100, R101). -/
def dispatched (op : OpCode) (op0 op1 : RegIdx) (s : State) (body : Host.Outcome State Fault Refusal) :
    Host.Outcome State Fault Refusal :=
  if ¬ (s.config.RegInRange op0 ∧ s.config.RegInRange op1) then .refused .unvalidatedInstruction
  else if implemented s.config op then body
  else raise (.unsupportedOpCode op) s

end Sys2Proof.Machine
end

