-- ==== Sys2Proof/Machine/Flags.lean ====
section
/-! DEFINITION. The block has no flags, condition codes or predicates (spec/10_state.md R38). What another machine would
keep as a carry is only the verdict that makes ADD fail (spec/41_alu.md R120, R121), and it stands here. -/

namespace Sys2Proof.Machine

/-- The overflow verdict of ADD: the mathematical sum of the two unsigned operands exceeds 0xFFFFFFFF (R120, R121). -/
def addOverflows (lhs rhs : Word) : Bool := decide (lhs.toNat + rhs.toNat > 0xFFFFFFFF)

end Sys2Proof.Machine
end

