-- ==== Sys2Proof/Machine/Alu.lean ====
section
/-! DEFINITION. ADD and XOR (spec/41_alu.md R120 to R127). -/

namespace Sys2Proof.Machine

/-- ADD: checked unsigned addition into x[op0]; on overflow it raises and writes nothing (R120, R122). -/
def execAdd (op0 op1 : RegIdx) (s : State) : Host.Outcome State Fault Refusal :=
  dispatched .add op0 op1 s <|
    if addOverflows (regOperand s op0) (regOperand s op1) then
      raise (.additionOverflow (regOperand s op0) (regOperand s op1)) s
    else complete (writeOperand s op0 (regOperand s op0 + regOperand s op1))

/-- XOR: x[op0] <- x[op0] ^ x[op1]; it never fails (R125). -/
def execXor (op0 op1 : RegIdx) (s : State) : Host.Outcome State Fault Refusal :=
  dispatched .xor op0 op1 s <|
    complete (writeOperand s op0 (regOperand s op0 ^^^ regOperand s op1))

end Sys2Proof.Machine
end

