-- ==== Sys2Proof/Machine/LoadStore.lean ====
section
/-! DEFINITION. LDW and STW (spec/42_load_store.md R140 to R148). -/

namespace Sys2Proof.Machine

/-- LDW: x[op0] <- zext_32(MemRead(x[op1], 1)) (R140). The address is read before x[op0] is written (R104). -/
def execLdw (op0 op1 : RegIdx) (s : State) : Host.Outcome State Fault Refusal :=
  dispatched .ldw op0 op1 s <|
    match memRead s (effectiveAddress s op1) with
    | .error e => raise e s
    | .ok b => complete (writeOperand s op0 (zext32 b))

/-- STW: MemWrite(x[op1], 1, low_byte(x[op0])); no register is written (R145). -/
def execStw (op0 op1 : RegIdx) (s : State) : Host.Outcome State Fault Refusal :=
  dispatched .stw op0 op1 s <|
    match memWrite s (effectiveAddress s op1) (lowByte (regOperand s op0)) with
    | .error e => raise e s
    | .ok t => complete t

end Sys2Proof.Machine
end

