-- ==== Sys2Proof/Machine/Transactions.lean ====
section
/-! DEFINITION. The transactions of the block's boundary (spec/00_scope.md R18 to R28), each over the state whose queue
already lacks it. -/

namespace Sys2Proof.Machine

/-- The state with the host's queue replaced. -/
def State.withPending (s : State) (q : List Transaction) : State := { s with pending := q }

/-- The configuration that `construct(ceiling, size)` fixes; LOADSTORE_ENABLED and OPCODE_TAGS are the build's (R18, R190). -/
def constructConfig (c : Config) (ceiling size : Nat) : Config :=
  { c with regCeiling := ceiling, memSize := size }

/-- `construct`: a fresh block, nothing of an earlier one kept (R190, R192, R197). Illegal arguments are refused (R6, R8). -/
def doConstruct (ceiling size : Nat) (s : State) : Host.Outcome State Fault Refusal :=
  if Config.LegalCeiling ceiling ∧ Config.LegalMemSize size then
    .next ((State.constructed (constructConfig s.config ceiling size)).withPending s.pending)
  else .refused .illegalConfiguration

/-- `decode(word)`: the instruction or the decode error; no state is read or written (R20). -/
def doDecode (w : Word) (s : State) : Host.Outcome State Fault Refusal :=
  match decode s.config w with
  | .error e => raise e s
  | .ok i => respond (.ok (.instruction i)) s

/-- `execute(insn)` (R21, R100). -/
def doExecute (i : Instr) (s : State) : Host.Outcome State Fault Refusal := exec i s

/-- `register read(index)`: the value, or `Op0OutOfRange` whatever the index would be used for (R22, R34). -/
def doRegisterRead (index : Word) (s : State) : Host.Outcome State Fault Refusal :=
  if index.toNat > s.config.regCeiling then raise .op0OutOfRange s
  else respond (.ok (.word (s.reg index.toNat))) s

/-- `step(word)`: decode, then execute; a word that fails decode is not executed (R23, R105). -/
def doStep (w : Word) (s : State) : Host.Outcome State Fault Refusal :=
  match decode s.config w with
  | .error e => raise e s
  | .ok i => exec i s

/-- The host discards the block: its registers and memory are gone, and the host gets nothing back (R28, R197). -/
def doDrop (s : State) : Host.Outcome State Fault Refusal :=
  .next { s with x := [], mem := [], phase := .dropped, result := none }

/-- A transaction needs a block to take it (R179). -/
def onBlock (s : State) (body : Host.Outcome State Fault Refusal) : Host.Outcome State Fault Refusal :=
  match s.phase with
  | .constructed => body
  | .dropped => .fault .noBlock

/-- One transaction, from first to last (R26). -/
def transact (t : Transaction) (s : State) : Host.Outcome State Fault Refusal :=
  match t with
  | .construct ceiling size => doConstruct ceiling size s
  | .decode w => onBlock s (doDecode w s)
  | .execute i => onBlock s (doExecute i s)
  | .registerRead index => onBlock s (doRegisterRead index s)
  | .step w => onBlock s (doStep w s)
  | .drop => onBlock s (doDrop s)

/-- The block waits for its caller's next transaction, and nothing changes (R173, R191). -/
def idle (s : State) : Host.Outcome State Fault Refusal := .next s

end Sys2Proof.Machine
end

