-- ==== Sys2Proof/Machine/Step.lean ====
section
/-! DEFINITION. One step of the machine: the host's next transaction, from first to last. Transactions never overlap
(spec/00_scope.md R25, R26), and the block fetches nothing itself (spec/20_memory.md R53): each word comes from the caller. -/

namespace Sys2Proof.Machine

/-- One transaction of the queue, or an idle step where the host has submitted none. -/
def step (s : State) : Host.Outcome State Fault Refusal :=
  match s.pending with
  | [] => idle s
  | t :: rest => transact t (s.withPending rest)

/-- The host submits a word to `step` as its very next transaction; the queue behind it stays (log entry 4). -/
def State.withFetchWord (s : State) (nbits w : Nat) : State :=
  s.withPending (.step (tableWord nbits w) :: s.pending)

end Sys2Proof.Machine
end

