-- ==== Sys2Proof/Machine/Asm.lean ====
section
/-! DEFINITION. The written form of an instruction (spec/30_encoding.md R84, spec/42_load_store.md R148; decision D10). It has no
effect on what an instruction does. -/

namespace Sys2Proof.Machine

/-- The spellings of an opcode, the canonical one first: `LD` is `LDW` and `ST` is `STW` (R84, R148). -/
def spellings : OpCode → List String
  | .ldw => ["LDW", "LD"]
  | .stw => ["STW", "ST"]
  | .add => ["ADD"]
  | .xor => ["XOR"]

/-- A register's name in assembly, `r0` to `r31` (R31, R84). -/
def registerName (r : RegIdx) : String := "r" ++ toString r.toNat

/-- `<name> r<op0>, r<op1>` (R84). -/
def asmLine (name : String) (i : Instr) : String :=
  name ++ " " ++ registerName i.op0 ++ ", " ++ registerName i.op1

/-- The accepted texts of an instruction, the canonical one first; there are no pseudo-instructions (R84). -/
def asmLines (i : Instr) : List String := (spellings i.opcode).map (asmLine · i)

end Sys2Proof.Machine
end

