-- ==== Sys2Proof/Safety.lean ====
section
/-! DEFINITION. The terms the claims are stated in: what every state of a run satisfies, what may change between two states,
what the next transaction executes, and runs of many transactions. -/

namespace Sys2Proof.Machine

/-! ## Invariants -/

/-- What every step keeps, from any state: the configuration is legal (R6, R8, R75); a constructed block has exactly
REG_CEILING + 1 registers (R31, R36); memory is in its canonical form and lists no address at or above MEM_SIZE (R50, R58);
and a dropped block holds nothing (R179, R197). -/
structure State.Inv (s : State) : Prop where
  config_legal : s.config.WellFormed
  file_size : s.phase = .constructed → s.x.length = s.config.regCount
  mem_canonical : s.mem.wf = true
  mem_bounded : ∀ c ∈ s.mem, c.1 < s.config.memSize
  dropped_empty : s.phase = .dropped → s.x = [] ∧ s.mem = []

/-- A block that can take transactions (R179). -/
def State.Operable (s : State) : Prop := s.Inv ∧ s.phase = .constructed

/-- Every register value and every memory byte is a multiple of 0x10 (R46). -/
def State.Granular (s : State) : Prop :=
  (∀ n, (s.reg n).toNat % 0x10 = 0) ∧ (∀ a, (s.byte a).toNat % 0x10 = 0)

/-! ## What may change between two states -/

/-- Every register but register d is as before; the file keeps its size. -/
def SameRegsExcept (d : Nat) (s t : State) : Prop :=
  t.x.length = s.x.length ∧ ∀ n, n ≠ d → t.reg n = s.reg n

/-- Every register is as before. -/
def SameRegs (s t : State) : Prop :=
  t.x.length = s.x.length ∧ ∀ n, t.reg n = s.reg n

/-- Every byte of memory but the one at address a is as before. -/
def SameBytesExcept (a : Nat) (s t : State) : Prop := ∀ b, b ≠ a → t.byte b = s.byte b

/-- Every byte of memory is as before. -/
def SameBytes (s t : State) : Prop := ∀ b, t.byte b = s.byte b

/-- The model's own fields but the answer are as before: the configuration, the lifecycle and the host's queue. -/
def SameHost (s t : State) : Prop :=
  t.config = s.config ∧ t.phase = s.phase ∧ t.pending = s.pending

/-- The block as a whole is as before: its registers, its memory, its configuration and its lifecycle. -/
def SameBlock (s t : State) : Prop :=
  t.x = s.x ∧ t.mem = s.mem ∧ t.config = s.config ∧ t.phase = s.phase

/-! ## The next transaction -/

/-- The instruction the next transaction executes: of `step`, the one its word decodes to; of `execute`, the one submitted. -/
def State.nextInstr (s : State) : Option Instr :=
  match s.phase with
  | .dropped => none
  | .constructed =>
    match s.pending with
    | .step w :: _ =>
      match decode s.config w with
      | .ok i => some i
      | .error _ => none
    | .execute i :: _ => some i
    | _ => none

/-- A transaction runs an instruction: it is `execute` of it, or `step` of a word that decodes to it (R21, R105). -/
abbrev Transaction.Runs (c : Config) (t : Transaction) (i : Instr) : Prop :=
  t = .execute i ∨ ∃ w, t = .step w ∧ Sys2Proof.decode c w = .ok i

/-- In this state the instruction completes and v is the value it writes to x[op0] (R120, R125, R140): for ADD the mathematical
sum, which a 32-bit v equals only where it fits; for LDW the byte, where load/store is implemented and the address in bounds.
STW writes no register (R145). -/
def State.Writes (s : State) (i : Instr) (v : Word) : Prop :=
  match i with
  | .add d r => v.toNat = (s.reg d.toNat).toNat + (s.reg r.toNat).toNat
  | .xor d r => v = s.reg d.toNat ^^^ s.reg r.toNat
  | .ldw _ a => s.config.loadStoreEnabled = true ∧ (s.reg a.toNat).toNat < s.config.memSize ∧
      v.toNat = (s.byte (s.reg a.toNat).toNat).toNat
  | .stw _ _ => False

/-- The next transaction constructs or drops the block. -/
def State.nextIsLifecycle (s : State) : Bool :=
  match s.pending with
  | .construct _ _ :: _ => true
  | .drop :: _ => true
  | _ => false

/-- The store the next transaction makes: the address and the byte of an implemented STW whose address is in bounds. -/
def State.nextStore (s : State) : Option (Nat × Byte) :=
  match s.nextInstr with
  | some (.stw v a) =>
    if s.config.loadStoreEnabled && decide ((s.reg a.toNat).toNat < s.config.memSize) then
      some ((s.reg a.toNat).toNat, lowByte (s.reg v.toNat))
    else none
  | _ => none

/-- What R28 lets the host submit to a constructed block while it lives: any word, any register index, and an instruction
whose indices are within the ceiling. -/
def Transaction.Submittable (c : Config) : Transaction → Prop
  | .construct _ _ => False
  | .decode _ => True
  | .execute i => i.WellFormed c
  | .registerRead _ => True
  | .step _ => True
  | .drop => False

/-! ## Runs -/

/-- k steps, one after another, up to the first fault or refusal. -/
def run : Nat → State → Host.Outcome State Fault Refusal
  | 0, s => .next s
  | k + 1, s =>
    match step s with
    | .next t => run k t
    | stop => stop

/-- The states a run reaches from a legal configuration's `construct`, whatever the host submits. -/
inductive Reachable : State → Prop where
  | constructed (c : Config) (q : List Transaction) (h : c.WellFormed) :
      Reachable ((State.constructed c).withPending q)
  | step (s t : State) (hs : Reachable s) (h : Machine.step s = .next t) : Reachable t

/-- A run of one block with the stores it makes, the latest first: no transaction of it constructs or drops the block. -/
inductive RunStoring (s : State) : List (Nat × Byte) → State → Prop where
  | start : RunStoring s [] s
  | step (l : List (Nat × Byte)) (t u : State) (ht : RunStoring s l t) (hl : t.nextIsLifecycle = false)
      (h : Machine.step t = .next u) : RunStoring s (t.nextStore.toList ++ l) u

/-- The byte that the latest store to an address left there, if the list holds one. -/
def latestStore (l : List (Nat × Byte)) (a : Nat) : Option Byte :=
  (l.find? (fun c => c.1 == a)).map Prod.snd

end Sys2Proof.Machine
end

