-- ==== Sys2Proof/Certificates/Slice0/Obligations.lean ====
section
/-! DEFINITION. The statements for the provers, each an `Obligations.<Name> : Prop`. Every statement is about every
configuration unless it names one. A docstring names the rule a statement formalises, or, for a statement of basis
'derived', the decision or log entry it rests on. -/

open Sys2Proof Sys2Proof.Machine

/-! ## Encoding and decoding -/

/-- R74, the decode algorithm in its normative check order, on the fields as R71 computes them from the word. -/
def Obligations.DecodeFollowsTheOrderOfChecks : Prop :=
  ∀ (c : Config) (w : Word) (tag : Tag) (a b : RegIdx),
    tag.toNat = w.toNat % 64 → a.toNat = w.toNat / 64 % 32 → b.toNat = w.toNat / 2048 % 32 →
    match c.tags.lookup tag with
    | none => decode c w = .error (.invalidOpCode tag)
    | some op =>
      if c.regCeiling < a.toNat then decode c w = .error .op0OutOfRange
      else if c.regCeiling < b.toNat then decode c w = .error .op1OutOfRange
      else ∃ i, decode c w = .ok i ∧ i.opcode = op ∧ i.op0 = a ∧ i.op1 = b

/-- R77: two words that differ only in bits [31:16] decode to the same result, an instruction or an error. -/
def Obligations.DecodeIgnoresUpperHalf : Prop :=
  ∀ (c : Config) (v w : Word), v.toNat % 2 ^ 16 = w.toNat % 2 ^ 16 → decode c v = decode c w

/-- R80 and R81: every word gives an instruction within the ceiling or one of the three decode errors. -/
def Obligations.DecodeIsTotalAndValidated : Prop :=
  ∀ (c : Config) (w : Word),
    (∃ i, decode c w = .ok i ∧ i.op0.toNat ≤ c.regCeiling ∧ i.op1.toNat ≤ c.regCeiling) ∨
    decode c w = .error (.invalidOpCode (tagField w)) ∨
    decode c w = .error .op0OutOfRange ∨ decode c w = .error .op1OutOfRange

/-- R75: under every legal OPCODE_TAGS, a tag maps to an opcode exactly when it is that opcode's tag. -/
def Obligations.OpcodeMapIsClosed : Prop :=
  ∀ (m : OpcodeTags) (t : Tag) (op : OpCode), m.WellFormed → (m.lookup t = some op ↔ t = m.tagOf op)

/-- R76 and R78 on this hardware: a word is refused exactly when its tag is one of the 60 tags 0x04 to 0x3F, always as
`InvalidOpCode` with those bits. Rests on the tag values of decision D5 (log entry 2) and on the ceiling of D2. -/
def Obligations.HardwareRefusesExactlyTheUnmappedTags : Prop :=
  ∀ (w : Word),
    (w.toNat % 64 < 4 → ∃ i, decode hwConfig w = .ok i) ∧
    (4 ≤ w.toNat % 64 → ∃ t : Tag, t.toNat = w.toNat % 64 ∧ decode hwConfig w = .error (.invalidOpCode t))

/-- R78 for the 8-register variant: op0 is checked first, then op1, against ceiling 7. -/
def Obligations.SmallCeilingRejectsOperands : Prop :=
  ∀ (c : Config) (w : Word) (op : OpCode), c.regCeiling = 7 → c.tags.lookup (tagField w) = some op →
    (8 ≤ w.toNat / 64 % 32 → decode c w = .error .op0OutOfRange) ∧
    (w.toNat / 64 % 32 < 8 → 8 ≤ w.toNat / 2048 % 32 → decode c w = .error .op1OutOfRange) ∧
    (w.toNat / 64 % 32 < 8 → w.toNat / 2048 % 32 < 8 → ∃ i, decode c w = .ok i ∧ i.opcode = op)

/-- R83: decoding an encoded instruction gives it back, for every instruction and every operand value the configuration
admits, and encoding a decoded word gives the word with bits [31:16] cleared. The encoder is the spec's decision D18. -/
def Obligations.DecodeEncodeRoundTrip : Prop :=
  ∀ (c : Config), c.tags.WellFormed →
    (∀ i : Instr, i.WellFormed c → decode c (encode c.tags i) = .ok i) ∧
    (∀ (w : Word) (i : Instr), decode c w = .ok i → (encode c.tags i).toNat = w.toNat % 2 ^ 16)

/-- Words written out from the bit layout of R71, one for each instruction and two refusals. The ADD word is the source's own
example; the LDW, STW and XOR words rest on decision D5 (log entry 2). -/
def Obligations.SampleWordsDecode : Prop :=
  decode hwConfig 0x1842#32 = .ok (.add 1#5 3#5) ∧
  decode hwConfig 0x12340883#32 = .ok (.xor 2#5 1#5) ∧
  decode hwConfig 0x80C0#32 = .ok (.ldw 3#5 16#5) ∧
  decode hwConfig 0x8081#32 = .ok (.stw 2#5 16#5) ∧
  decode hwConfig 0x067F#32 = .error (.invalidOpCode 0x3F#6) ∧
  decode hwConfig 0x4#32 = .error (.invalidOpCode 0x04#6)

/-! ## Reset and the lifecycle of a block -/

/-- R190, R43, R44: `construct` with a legal ceiling and size, from any state, fixes the two parameters, gives every register
its seed and every byte zero, and answers the initialised block. That `construct` may come at any point of a run, on any state
and with any legal arguments, and that LOADSTORE_ENABLED and OPCODE_TAGS stay those of the state it comes to, is the model's
choice (log entry 14). -/
def Obligations.ConstructBuildsTheResetState : Prop :=
  ∀ (s : State) (ceiling size : Nat) (rest : List Transaction),
    Config.LegalCeiling ceiling → Config.LegalMemSize size → s.pending = .construct ceiling size :: rest →
    ∃ t, step s = .next t ∧
      t.config.regCeiling = ceiling ∧ t.config.memSize = size ∧
      t.config.loadStoreEnabled = s.config.loadStoreEnabled ∧ t.config.tags = s.config.tags ∧
      t.x.length = ceiling + 1 ∧ (∀ i, i ≤ ceiling → (t.reg i).toNat = i * 0x10) ∧
      (∀ a, a < size → t.byte a = 0#8) ∧
      t.phase = .constructed ∧ t.pending = rest ∧ t.result = some (.ok .block)

/-- R193: the same configuration always gives the same state; nothing of the earlier state is kept. -/
def Obligations.ConstructForgetsEverything : Prop :=
  ∀ (s s' : State) (ceiling size : Nat) (rest : List Transaction),
    s.config.loadStoreEnabled = s'.config.loadStoreEnabled → s.config.tags = s'.config.tags →
    s.pending = .construct ceiling size :: rest → s'.pending = .construct ceiling size :: rest →
    step s = step s'

/-- The reset state of this hardware, value by value: x[i] = i * 0x10 for the 32 registers and 4096 zero bytes (R43, R44 at the
parameter values of decisions D2 and D3). -/
def Obligations.ResetValuesOfTheHardware : Prop :=
  State.reset.x.length = 32 ∧ (∀ i, i ≤ 31 → (State.reset.reg i).toNat = i * 0x10) ∧
  (∀ a, a < 4096 → State.reset.byte a = 0#8) ∧
  State.reset.config.memSize = 4096 ∧ State.reset.config.loadStoreEnabled = true

/-- The invariant holds at reset. -/
def Obligations.ResetMeetsTheInvariant : Prop := State.reset.Inv

/-- A dropped block keeps no register and no byte (R197); the lifecycle field is the model's own (log entry 5). -/
def Obligations.DropDiscardsTheBlock : Prop :=
  ∀ (s : State) (rest : List Transaction), s.phase = .constructed → s.pending = .drop :: rest →
    ∃ t, step s = .next t ∧ t.x = [] ∧ t.mem = [] ∧ t.phase = .dropped ∧ t.pending = rest ∧
      t.config = s.config ∧ t.result = none

/-! ## The step -/

/-- R105: `step(word)` of a word that decodes is `execute` of the instruction; of a word that does not, it answers the decode
error, and the block is unchanged. -/
def Obligations.StepRunsTheDecodedInstruction : Prop :=
  ∀ (s : State) (w : Word) (rest : List Transaction), s.phase = .constructed → s.pending = .step w :: rest →
    (∀ i, decode s.config w = .ok i → step s = exec i (s.withPending rest)) ∧
    (∀ e, decode s.config w = .error e →
      ∃ t, step s = .next t ∧ SameBlock s t ∧ t.pending = rest ∧ t.result = some (.err e))

/-- A word placed by `withFetchWord` is the one the very next step runs, on the state it was placed in (log entry 4). -/
def Obligations.PlacedWordRunsNext : Prop :=
  ∀ (s : State) (w : Nat) (i : Instr), s.phase = .constructed → s.config = hwConfig →
    decodeTableWord 32 w = some i → step (s.withFetchWord 32 w) = exec i s

/-- With no transaction submitted nothing changes; that the model then takes an idle step is its own choice (log entry 3). -/
def Obligations.IdleStepChangesNothing : Prop :=
  ∀ (s : State), s.pending = [] → step s = .next s

/-- R22: `register read` answers the register, or `Op0OutOfRange` above the ceiling, and changes no state. -/
def Obligations.RegisterReadAnswers : Prop :=
  ∀ (s : State) (index : Word) (rest : List Transaction), s.phase = .constructed →
    s.pending = .registerRead index :: rest →
    ∃ t, step s = .next t ∧ SameBlock s t ∧ t.pending = rest ∧
      t.result = some (if index.toNat ≤ s.config.regCeiling then .ok (.word (s.reg index.toNat)) else .err .op0OutOfRange)

/-- R20: `decode` answers what the decoder gives and writes no state. -/
def Obligations.DecodeTransactionAnswers : Prop :=
  ∀ (s : State) (w : Word) (rest : List Transaction), s.phase = .constructed → s.pending = .decode w :: rest →
    ∃ t, step s = .next t ∧ SameBlock s t ∧ t.pending = rest ∧
      (∀ i, decode s.config w = .ok i → t.result = some (.ok (.instruction i))) ∧
      (∀ e, decode s.config w = .error e → t.result = some (.err e))

/-- R18, R23: `step` is the combination of `decode` and `execute`: decoding a word and then executing what it decoded to ends as
one `step` of the word does, and where decoding fails the two answer alike. -/
def Obligations.StepIsDecodeThenExecute : Prop :=
  ∀ (s : State) (w : Word) (rest : List Transaction), s.phase = .constructed →
    (∀ i, decode s.config w = .ok i →
      ∃ t, step (s.withPending (.decode w :: .execute i :: rest)) = .next t ∧
        t.result = some (.ok (.instruction i)) ∧ step t = step (s.withPending (.step w :: rest))) ∧
    (∀ e, decode s.config w = .error e →
      step (s.withPending (.decode w :: rest)) = step (s.withPending (.step w :: rest)))

/-- R168: a `step` of a word reports the first failing check, in this order: the tag, op0, op1, the configuration, and the
instruction's own check, of which it has at most one. R168 gives the order alone. That only LDW and STW can be unsupported is the
spec's decision D6, and that the address is compared and reported untruncated its decisions D4 and D19 (log entry 11). -/
def Obligations.FirstFailingCheckIsReported : Prop :=
  ∀ (s : State) (w : Word) (rest : List Transaction), s.phase = .constructed → s.pending = .step w :: rest →
    ∃ t, step s = .next t ∧
      match s.config.tags.lookup (tagField w) with
      | none => t.result = some (.err (.invalidOpCode (tagField w)))
      | some op =>
        if s.config.regCeiling < (op0Field w).toNat then t.result = some (.err .op0OutOfRange)
        else if s.config.regCeiling < (op1Field w).toNat then t.result = some (.err .op1OutOfRange)
        else if (op = .ldw ∨ op = .stw) ∧ s.config.loadStoreEnabled = false then
          t.result = some (.err (.unsupportedOpCode op))
        else if op = .add ∧ 2 ^ 32 ≤ (s.reg (op0Field w).toNat).toNat + (s.reg (op1Field w).toNat).toNat then
          t.result = some (.err (.additionOverflow (s.reg (op0Field w).toNat) (s.reg (op1Field w).toNat)))
        else if (op = .ldw ∨ op = .stw) ∧ s.config.memSize ≤ (s.reg (op1Field w).toNat).toNat then
          t.result = some (.err (.memoryOverflow (s.reg (op1Field w).toNat)))
        else t.result = some (.ok .unit)

/-! ## ADD and XOR -/

/-- R120, R121, R122: the encoding of ADD, its result where the mathematical sum fits in 32 bits, and where it does not the error
with the two operands in order; each with its frame. -/
def Obligations.AddIsCheckedUnsignedAddition : Prop :=
  ∀ (s : State) (d r : RegIdx), s.Operable → s.config.RegInRange d → s.config.RegInRange r →
    (∀ w : Word, w.toNat % 64 = 0x02 → w.toNat / 64 % 32 = d.toNat → w.toNat / 2048 % 32 = r.toNat →
      decode s.config w = .ok (.add d r)) ∧
    ((s.reg d.toNat).toNat + (s.reg r.toNat).toNat ≤ 0xFFFFFFFF →
      ∃ t, exec (.add d r) s = .next t ∧
        (t.reg d.toNat).toNat = (s.reg d.toNat).toNat + (s.reg r.toNat).toNat ∧
        SameRegsExcept d.toNat s t ∧ SameBytes s t ∧ SameHost s t ∧ t.result = some (.ok .unit)) ∧
    (0xFFFFFFFF < (s.reg d.toNat).toNat + (s.reg r.toNat).toNat →
      ∃ t, exec (.add d r) s = .next t ∧
        SameRegs s t ∧ SameBytes s t ∧ SameHost s t ∧
        t.result = some (.err (.additionOverflow (s.reg d.toNat) (s.reg r.toNat))))

/-- R123: ADD commutes in its sum and in its overflow verdict, but not in the register it writes nor in its payload's order. -/
def Obligations.AddCommutesInResultOnly : Prop :=
  ∀ (s : State) (a b : RegIdx), s.Operable → s.config.RegInRange a → s.config.RegInRange b →
    ∃ t u, exec (.add a b) s = .next t ∧ exec (.add b a) s = .next u ∧
      ((s.reg a.toNat).toNat + (s.reg b.toNat).toNat < 2 ^ 32 →
        t.reg a.toNat = s.reg a.toNat + s.reg b.toNat ∧ u.reg b.toNat = t.reg a.toNat ∧
        SameRegsExcept a.toNat s t ∧ SameRegsExcept b.toNat s u) ∧
      (2 ^ 32 ≤ (s.reg a.toNat).toNat + (s.reg b.toNat).toNat →
        SameRegs s t ∧ SameRegs s u ∧
        t.result = some (.err (.additionOverflow (s.reg a.toNat) (s.reg b.toNat))) ∧
        u.result = some (.err (.additionOverflow (s.reg b.toNat) (s.reg a.toNat))))

/-- R126: XOR completes for all operands, each of the 32 result bits being 1 exactly where the operands differ; with its frame. -/
def Obligations.XorWritesBitwiseDifference : Prop :=
  ∀ (s : State) (d r : RegIdx), s.Operable → s.config.RegInRange d → s.config.RegInRange r →
    ∃ t, exec (.xor d r) s = .next t ∧
      (∀ k, k < 32 → ((t.reg d.toNat).getLsbD k = true ↔
        (s.reg d.toNat).getLsbD k ≠ (s.reg r.toNat).getLsbD k)) ∧
      SameRegsExcept d.toNat s t ∧ SameBytes s t ∧ SameHost s t ∧ t.result = some (.ok .unit)

/-- R125's corner case: XOR of a register with itself writes 0, and twice the same XOR restores the destination. -/
def Obligations.XorTwiceRestores : Prop :=
  ∀ (s : State) (d r : RegIdx), s.Operable → s.config.RegInRange d → s.config.RegInRange r →
    ∃ t, exec (.xor d r) s = .next t ∧
      (d = r → t.reg d.toNat = 0#32) ∧
      (d ≠ r → ∃ u, exec (.xor d r) t = .next u ∧ SameRegs s u)

/-! ## LDW and STW -/

/-- R54: the memory read primitive. -/
def Obligations.MemReadIsBounded : Prop :=
  ∀ (s : State) (addr : Word),
    (addr.toNat < s.config.memSize → memRead s addr = .ok (s.byte addr.toNat)) ∧
    (¬ addr.toNat < s.config.memSize → memRead s addr = .error (.memoryOverflow addr))

/-- R55: the memory write primitive: exactly the one byte, or the error. -/
def Obligations.MemWriteChangesOneByte : Prop :=
  ∀ (s : State) (addr : Word) (v : Byte), s.mem.wf = true →
    (addr.toNat < s.config.memSize → ∃ t, memWrite s addr v = .ok t ∧ t.byte addr.toNat = v ∧
      SameBytesExcept addr.toNat s t ∧ SameRegs s t ∧ SameHost s t) ∧
    (¬ addr.toNat < s.config.memSize → memWrite s addr v = .error (.memoryOverflow addr))

/-- R56: the bound is strict: address MEM_SIZE is rejected and MEM_SIZE - 1 is accepted, by loads and by stores. -/
def Obligations.MemoryBoundIsStrict : Prop :=
  ∀ (s : State) (addr : Word) (v : Byte),
    (addr.toNat = s.config.memSize →
      memRead s addr = .error (.memoryOverflow addr) ∧ memWrite s addr v = .error (.memoryOverflow addr)) ∧
    (addr.toNat + 1 = s.config.memSize →
      (∃ b, memRead s addr = .ok b) ∧ (∃ t, memWrite s addr v = .ok t))

/-- R142: LDW from an address in bounds completes: the byte fills bits [7:0], bits [31:8] are 0; with its frame. The address is the
value of op1 before the destination is written, also where the two are one register. -/
def Obligations.LdwLoadsZeroExtendedByte : Prop :=
  ∀ (s : State) (d a : RegIdx), s.Operable → s.config.RegInRange d → s.config.RegInRange a →
    s.config.loadStoreEnabled = true → (s.reg a.toNat).toNat < s.config.memSize →
    ∃ t, exec (.ldw d a) s = .next t ∧
      (t.reg d.toNat).toNat = (s.byte (s.reg a.toNat).toNat).toNat ∧
      (∀ k, 8 ≤ k → (t.reg d.toNat).getLsbD k = false) ∧
      SameRegsExcept d.toNat s t ∧ SameBytes s t ∧ SameHost s t ∧ t.result = some (.ok .unit)

/-- R146: STW to an address in bounds completes: the byte at the address is bits [7:0] of op0, every other byte is as before, and no
register changes. -/
def Obligations.StwStoresLowByte : Prop :=
  ∀ (s : State) (v a : RegIdx), s.Operable → s.config.RegInRange v → s.config.RegInRange a →
    s.config.loadStoreEnabled = true → (effectiveAddress s a).toNat < s.config.memSize →
    ∃ t, exec (.stw v a) s = .next t ∧
      (t.byte (effectiveAddress s a).toNat).toNat = (s.reg v.toNat).toNat % 256 ∧
      SameBytesExcept (effectiveAddress s a).toNat s t ∧
      SameRegs s t ∧ SameHost s t ∧ t.result = some (.ok .unit)

/-- The effective address of STW is the value of op1 and nothing else, and its byte the low byte of op0 (R141, R146): changing any
other register changes neither the memory STW leaves nor its answer. -/
def Obligations.StwDependsOnItsTwoRegistersOnly : Prop :=
  ∀ (s s' : State) (v a : RegIdx), s.mem = s'.mem → s.config = s'.config →
    s.reg v.toNat = s'.reg v.toNat → s.reg a.toNat = s'.reg a.toNat →
    ∀ t, exec (.stw v a) s = .next t → ∃ t', exec (.stw v a) s' = .next t' ∧ t'.mem = t.mem ∧ t'.result = t.result

/-- The effective address of LDW is the value of op1 and nothing else (R141): changing any other register, the destination among
them, changes neither its answer nor, where it completes, the value it leaves in the destination. -/
def Obligations.LdwDependsOnItsAddressRegisterOnly : Prop :=
  ∀ (s s' : State) (d a : RegIdx), s.Operable → s'.Operable → s.mem = s'.mem → s.config = s'.config →
    s.reg a.toNat = s'.reg a.toNat →
    ∀ t, exec (.ldw d a) s = .next t → ∃ t', exec (.ldw d a) s' = .next t' ∧ t'.result = t.result ∧ t'.mem = t.mem ∧
      (t.result = some (.ok .unit) → t'.reg d.toNat = t.reg d.toNat)

/-- An address at or above MEM_SIZE makes LDW and STW answer `MemoryOverflow` with the full 32-bit value, and nothing changes. That
the address is not truncated is the spec's decision D4, and its width in the payload D19. -/
def Obligations.LoadStoreOutOfBoundsReportsTheAddress : Prop :=
  ∀ (s : State) (d a : RegIdx) (i : Instr), i = .ldw d a ∨ i = .stw d a →
    i.WellFormed s.config → s.config.loadStoreEnabled = true → s.config.memSize ≤ (s.reg a.toNat).toNat →
    ∃ t, exec i s = .next t ∧ SameRegs s t ∧ SameBytes s t ∧ SameHost s t ∧
      t.result = some (.err (.memoryOverflow (s.reg a.toNat)))

/-- R147: an STW and the very next LDW at the same address load the zero-extended low byte, in a run of two transactions. -/
def Obligations.StoreThenLoadRoundTrips : Prop :=
  ∀ (s : State) (v a d : RegIdx) (rest : List Transaction), s.Operable →
    s.config.RegInRange v → s.config.RegInRange a → s.config.RegInRange d →
    s.config.loadStoreEnabled = true → (s.reg a.toNat).toNat < s.config.memSize →
    s.pending = .execute (.stw v a) :: .execute (.ldw d a) :: rest →
    ∃ t, run 2 s = .next t ∧ (t.reg d.toNat).toNat = (s.reg v.toNat).toNat % 256 ∧
      SameRegsExcept d.toNat s t ∧ SameBytesExcept (s.reg a.toNat).toNat s t ∧ t.pending = rest ∧
      t.config = s.config ∧ t.phase = s.phase ∧ t.result = some (.ok .unit)

/-- R63, the sequential memory model, over any run of one block: a byte is what the latest successful STW to it left, or what the
run began with; and an LDW then loads exactly that. The premise is the model's canonical memory, which every step keeps. -/
def Obligations.LoadReturnsTheLatestStore : Prop :=
  ∀ (s t : State) (l : List (Nat × Byte)), s.mem.wf = true → RunStoring s l t →
    (∀ a, t.byte a = (latestStore l a).getD (s.byte a)) ∧
    (∀ (d r : RegIdx), t.Operable → t.config.RegInRange d → t.config.RegInRange r →
      t.config.loadStoreEnabled = true → (t.reg r.toNat).toNat < t.config.memSize →
      ∃ u, exec (.ldw d r) t = .next u ∧
        u.reg d.toNat = zext32 ((latestStore l (t.reg r.toNat).toNat).getD (s.byte (t.reg r.toNat).toNat)))

/-! ## Errors -/

/-- R101, R169: without load/store, LDW and STW raise `UnsupportedOpCode` with their opcode before anything else, and ADD and XOR
never raise it. That load/store is the only group a build can lack is the spec's decision D6. -/
def Obligations.DisabledLoadStoreIsUnsupported : Prop :=
  ∀ (s : State) (i : Instr), i.WellFormed s.config →
    (s.config.loadStoreEnabled = false → (i.opcode = .ldw ∨ i.opcode = .stw) →
      ∃ t, exec i s = .next t ∧ SameRegs s t ∧ SameBytes s t ∧ SameHost s t ∧
        t.result = some (.err (.unsupportedOpCode i.opcode))) ∧
    ((s.config.loadStoreEnabled = true ∨ i.opcode = .add ∨ i.opcode = .xor) →
      ∃ t, exec i s = .next t ∧ ∀ op, t.result ≠ some (.err (.unsupportedOpCode op)))

/-- R169: the errors each instruction can raise after a successful decode, with load/store implemented or not. -/
def Obligations.ErrorsOfEachInstruction : Prop :=
  ∀ (s t : State) (i : Instr) (e : Error), exec i s = .next t → t.result = some (.err e) →
    match i with
    | .add _ _ => ∃ l r, e = .additionOverflow l r
    | .xor _ _ => False
    | .ldw _ _ => if s.config.loadStoreEnabled then ∃ a, e = .memoryOverflow a else e = .unsupportedOpCode .ldw
    | .stw _ _ => if s.config.loadStoreEnabled then ∃ a, e = .memoryOverflow a else e = .unsupportedOpCode .stw

/-- R103: `execute` completes entirely or changes no state: a success writes at most the one register op0 and no byte, or for STW the
one byte at x[op1] and no register; a failure writes nothing. -/
def Obligations.ExecuteIsAllOrNothing : Prop :=
  ∀ (s t : State) (i : Instr), exec i s = .next t →
    (t.result = some (.ok .unit) ∧ i.opcode ≠ .stw ∧ SameRegsExcept i.op0.toNat s t ∧ SameBytes s t) ∨
    (t.result = some (.ok .unit) ∧ i.opcode = .stw ∧ SameRegs s t ∧ SameBytesExcept (s.reg i.op1.toNat).toNat s t) ∨
    (∃ e, t.result = some (.err e) ∧ SameRegs s t ∧ SameBytes s t)

/-- Every error is precise: whatever transaction a step answers with an error, registers, memory, configuration and lifecycle are
as before, and the block is there for the next one (spec/60_exceptions.md section 3). -/
def Obligations.ErrorsChangeNothing : Prop :=
  ∀ (s t : State) (e : Error), step s = .next t → t.result = some (.err e) → SameBlock s t

/-- R106, R172: what an earlier transaction answered does not change how a later one behaves. The block latches no error, by the
spec's decision D8. -/
def Obligations.EarlierResultsDoNotMatter : Prop :=
  ∀ (s : State) (r : Option Result), s.pending ≠ [] → step { s with result := r } = step s

/-! ## Whole-machine rules -/

/-- Between lifecycle transactions, a register changes only when it is op0 of an ADD, XOR or LDW that succeeds (the table of
spec/10_state.md section 2). -/
def Obligations.OnlyTheDestinationRegisterChanges : Prop :=
  ∀ (s t : State) (n : Nat), step s = .next t → s.nextIsLifecycle = false → t.reg n ≠ s.reg n →
    ∃ i, s.nextInstr = some i ∧ i.op0.toNat = n ∧ i.opcode ≠ .stw ∧ t.result = some (.ok .unit)

/-- Between lifecycle transactions, a memory byte changes only by an STW to it, and to that STW's low byte (spec/20_memory.md
section 1). -/
def Obligations.OnlyStwChangesMemory : Prop :=
  ∀ (s t : State) (a : Nat), s.mem.wf = true → step s = .next t → s.nextIsLifecycle = false → t.byte a ≠ s.byte a →
    ∃ v r, s.nextInstr = some (.stw v r) ∧ (s.reg r.toNat).toNat = a ∧ a < s.config.memSize ∧
      t.byte a = lowByte (s.reg v.toNat) ∧ t.result = some (.ok .unit)

/-- Memory is observed through LDW alone: any other transaction gives the same registers and the same answer whatever memory
holds (spec/00_scope.md section 6, spec/20_memory.md section 1). -/
def Obligations.OnlyLdwObservesMemory : Prop :=
  ∀ (s t : State) (m : Memory), step s = .next t → (∀ d a, s.nextInstr ≠ some (.ldw d a)) →
    ∃ u, step (s.withMem m) = .next u ∧ u.x = t.x ∧ u.result = t.result ∧ SameHost t u

/-- R51: the memory size, like every parameter, never changes after construction. -/
def Obligations.ConfigurationIsFixedAtConstruction : Prop :=
  ∀ (s t : State), step s = .next t → (∀ ceiling size rest, s.pending ≠ .construct ceiling size :: rest) →
    t.config = s.config

/-- R26: every transaction the host may make on a constructed block, a legal `construct` among them, completes with one result
before the next begins; none faults or is refused. That the result and the next state are functions of the state and the
transaction alone is the type of `step`. -/
def Obligations.EveryTransactionAnswers : Prop :=
  ∀ (s : State) (t : Transaction) (rest : List Transaction), s.phase = .constructed → s.pending = t :: rest →
    (t.Submittable s.config ∨
      ∃ ceiling size, t = .construct ceiling size ∧ Config.LegalCeiling ceiling ∧ Config.LegalMemSize size) →
    ∃ u r, step s = .next u ∧ u.result = some r ∧ u.pending = rest ∧ u.phase = .constructed ∧
      (t.Submittable s.config → u.config = s.config)

/-- When the machine stops, and that it stops nowhere else: on a dropped block; for an illegal `construct`; for `execute` of an
instruction outside the ceiling, which the spec's decision D12 refuses (log entries 5, 6, 7). -/
def Obligations.TheMachineStopsExactlyHere : Prop :=
  ∀ (s : State),
    (∀ f, step s = .fault f ↔ s.phase = .dropped ∧ f = .noBlock ∧
      ∃ t rest, s.pending = t :: rest ∧ ∀ ceiling size, t ≠ .construct ceiling size) ∧
    (∀ r, step s = .refused r ↔
      (r = .illegalConfiguration ∧ ∃ ceiling size rest, s.pending = .construct ceiling size :: rest ∧
        ¬ (Config.LegalCeiling ceiling ∧ Config.LegalMemSize size)) ∨
      (r = .unvalidatedInstruction ∧ s.phase = .constructed ∧
        ∃ i rest, s.pending = .execute i :: rest ∧ ¬ i.WellFormed s.config))

/-- Under the ceiling of this hardware no instruction at all can be refused by its meaning (R78 with D2). -/
def Obligations.CanonicalCeilingRefusesNoInstruction : Prop :=
  ∀ (s : State) (i : Instr), s.config.regCeiling = 31 → ∃ t, exec i s = .next t

/-- A host's queue of any length is answered to its end: an error does not stop the block, and the block never halts (R106, R198
with decisions D8 and D20). -/
def Obligations.EveryProgramRunsToItsEnd : Prop :=
  ∀ (s : State), s.Operable → (∀ t ∈ s.pending, t.Submittable s.config) →
    ∃ u, run s.pending.length s = .next u ∧ u.pending = [] ∧ u.Operable ∧ u.config = s.config

/-- The invariant, from every state and for every transaction. -/
def Obligations.StepKeepsTheInvariant : Prop :=
  ∀ (s t : State), s.Inv → step s = .next t → t.Inv

/-- R46 as an invariant: every step keeps every register and every byte a multiple of 0x10. -/
def Obligations.StepKeepsGranularity : Prop :=
  ∀ (s t : State), s.Inv → s.Granular → step s = .next t → t.Granular

/-- R46: every state reachable from a `construct` has every register and every byte a multiple of 0x10, whatever the host submits;
so the address MEM_SIZE - 1 of this hardware is never reached. -/
def Obligations.ReachableStatesAreGranular : Prop :=
  ∀ (s : State), Reachable s → s.Granular ∧ ∀ n, s.reg n ≠ 0xFFF#32

/-- Equal memories are equal data: two canonical memories that read alike everywhere are one list. The form is the model's own
(log entry 8). -/
def Obligations.CanonicalMemoriesAreEqualWhenTheyReadEqual : Prop :=
  ∀ (m m' : Memory), m.wf = true → m'.wf = true → (∀ a, m.read a = m'.read a) → m = m'

/-- Back-to-back transactions have no hazard (spec/70_reset_and_hazards.md section 3), for every instruction that writes a register
and every reader, each submitted to `execute` or as a word to `step`. The first clause names the state u the reader works on: op0
of the writer holds the value written, and every other register and every byte is as before. The two transactions leave what the
reader leaves from u, an error included: an ADD, XOR or LDW that completes writes what it computes from u, an STW stores its
byte. The second clause is a register read as reader, and the third an LDW that follows an STW to the same address. -/
def Obligations.NextTransactionSeesTheWrite : Prop :=
  ∀ (s : State) (t₁ t₂ : Transaction) (rest : List Transaction), s.Operable → s.pending = t₁ :: t₂ :: rest →
    (∀ (i j : Instr) (v : Word), i.WellFormed s.config → j.WellFormed s.config →
      t₁.Runs s.config i → t₂.Runs s.config j → s.Writes i v →
      ∃ u : State, u.reg i.op0.toNat = v ∧ SameRegsExcept i.op0.toNat s u ∧ SameBytes s u ∧
        u.config = s.config ∧ u.phase = s.phase ∧ u.pending = rest ∧ run 2 s = exec j u ∧
        (∀ w, u.Writes j w → ∃ t, run 2 s = .next t ∧ t.reg j.op0.toNat = w ∧ SameRegsExcept j.op0.toNat u t ∧
          SameBytes u t ∧ SameHost u t ∧ t.result = some (.ok .unit)) ∧
        (∀ k a, j = .stw k a → u.config.loadStoreEnabled = true → (u.reg a.toNat).toNat < u.config.memSize →
          ∃ t, run 2 s = .next t ∧ t.byte (u.reg a.toNat).toNat = lowByte (u.reg k.toNat) ∧ SameRegs u t ∧
            SameBytesExcept (u.reg a.toNat).toNat u t ∧ SameHost u t ∧ t.result = some (.ok .unit))) ∧
    (∀ (i : Instr) (v index : Word), i.WellFormed s.config → t₁.Runs s.config i → s.Writes i v →
      t₂ = .registerRead index → index.toNat = i.op0.toNat →
      ∃ t, run 2 s = .next t ∧ t.result = some (.ok (.word v))) ∧
    (∀ k a d b : RegIdx, (Instr.stw k a).WellFormed s.config → (Instr.ldw d b).WellFormed s.config →
      t₁.Runs s.config (.stw k a) → t₂.Runs s.config (.ldw d b) → s.config.loadStoreEnabled = true →
      (s.reg a.toNat).toNat < s.config.memSize → s.reg b.toNat = s.reg a.toNat →
      ∃ t, run 2 s = .next t ∧ t.reg d.toNat = zext32 (lowByte (s.reg k.toNat)) ∧ t.result = some (.ok .unit))
end

