-- ==== Sys2Proof/Laws/Memory.lean ====
section
/-! SUPPORT. What the memory operations do: a read after a write, and that every write keeps the canonical form. -/

namespace Sys2Proof.Machine

@[simp] theorem Memory.read_nil (a : Nat) : Memory.read [] a = unwrittenByte := rfl

theorem Memory.read_cons (a b' : Nat) (v : Byte) (m : Memory) :
    Memory.read ((b', v) :: m) a = if b' = a then v else Memory.read m a := rfl

theorem Memory.wfFrom_cons (lo a : Nat) (b : Byte) (m : Memory) :
    Memory.wfFrom lo ((a, b) :: m) = true ↔ lo ≤ a ∧ b ≠ unwrittenByte ∧ Memory.wfFrom (a + 1) m = true := by
  simp [Memory.wfFrom, and_assoc]

/-- A weaker lower bound. -/
theorem Memory.wfFrom_mono {lo lo' : Nat} (h : lo' ≤ lo) : ∀ {m : Memory}, m.wfFrom lo = true → m.wfFrom lo' = true
  | [], _ => rfl
  | (a, b) :: m, hm => by
    rw [Memory.wfFrom_cons] at hm ⊢
    exact ⟨by omega, hm.2⟩

/-- Below its lower bound a canonical memory lists nothing. -/
theorem Memory.read_below {a : Nat} : ∀ {lo : Nat} {m : Memory}, m.wfFrom lo = true → a < lo → m.read a = unwrittenByte
  | _, [], _, _ => rfl
  | lo, (a', b) :: m, hm, h => by
    rw [Memory.wfFrom_cons] at hm
    rw [Memory.read_cons, if_neg (by omega)]
    exact Memory.read_below hm.2.2 (by omega)

/-- Reading through the cells of one address. -/
theorem Memory.read_cell_append (a k : Nat) (b : Byte) (m : Memory) (h : a = k → m.read k = unwrittenByte) :
    Memory.read (Memory.cell a b ++ m) k = if a = k then b else m.read k := by
  unfold Memory.cell
  split
  · next hb => by_cases hk : a = k <;> simp_all
  · simp [Memory.read_cons]

/-- A write leaves every other address alone, in any memory. -/
theorem Memory.read_write_other {a k : Nat} (b : Byte) (h : k ≠ a) : ∀ m : Memory, (m.write a b).read k = m.read k
  | [] => by
    have := Memory.read_cell_append a k b [] (fun e => absurd e.symm h)
    simpa [Memory.write, h.symm] using this
  | (a', b') :: m => by
    simp only [Memory.write]
    split
    · rw [Memory.read_cell_append _ _ _ _ (fun e => absurd e.symm h), if_neg h.symm]
    · split
      · next _ e =>
        rw [Memory.read_cell_append _ _ _ _ (fun e => absurd e.symm h), if_neg h.symm, Memory.read_cons,
          if_neg (by omega)]
      · rw [Memory.read_cons, Memory.read_cons, Memory.read_write_other b h m]

/-- A read after a write to the same address, in a canonical memory. -/
theorem Memory.read_write_self (a : Nat) (b : Byte) : ∀ {lo : Nat} {m : Memory}, m.wfFrom lo = true → (m.write a b).read a = b
  | _, [], _ => by
    have := Memory.read_cell_append a a b [] (fun _ => rfl)
    simpa [Memory.write] using this
  | lo, (a', b') :: m, hm => by
    rw [Memory.wfFrom_cons] at hm
    simp only [Memory.write]
    split
    · rw [Memory.read_cell_append, if_pos rfl]
      intro _
      rw [Memory.read_cons, if_neg (by omega)]
      exact Memory.read_below hm.2.2 (by omega)
    · split
      · rw [Memory.read_cell_append, if_pos rfl]
        intro _
        exact Memory.read_below hm.2.2 (by omega)
      · rw [Memory.read_cons, if_neg (by omega)]
        exact Memory.read_write_self a b hm.2.2

theorem Memory.wfFrom_cell_append (a : Nat) (b : Byte) (m : Memory) (h : m.wfFrom (a + 1) = true) :
    Memory.wfFrom a (Memory.cell a b ++ m) = true := by
  unfold Memory.cell
  split
  · exact Memory.wfFrom_mono (by omega) h
  · next hb => exact (Memory.wfFrom_cons _ _ _ _).2 ⟨Nat.le_refl a, hb, h⟩

/-- A write keeps the canonical form above any bound the address meets. -/
theorem Memory.wfFrom_write (a : Nat) (b : Byte) : ∀ {lo : Nat} {m : Memory}, m.wfFrom lo = true → lo ≤ a →
    (m.write a b).wfFrom lo = true
  | lo, [], _, h => by
    have := Memory.wfFrom_cell_append a b [] rfl
    exact Memory.wfFrom_mono h (by simpa [Memory.write] using this)
  | lo, (a', b') :: m, hm, h => by
    have hc := (Memory.wfFrom_cons _ _ _ _).1 hm
    simp only [Memory.write]
    split
    · exact Memory.wfFrom_mono h
        (Memory.wfFrom_cell_append a b _ ((Memory.wfFrom_cons _ _ _ _).2 ⟨by omega, hc.2⟩))
    · split
      · next _ e => exact Memory.wfFrom_mono h (Memory.wfFrom_cell_append a b m (e ▸ hc.2.2))
      · exact (Memory.wfFrom_cons _ _ _ _).2 ⟨hc.1, hc.2.1, Memory.wfFrom_write a b hc.2.2 (by omega)⟩

/-- Every memory write keeps the canonical form; a write is the only operation that makes a memory from another. -/
theorem Memory.wf_write (a : Nat) (b : Byte) {m : Memory} (h : m.wf = true) : (m.write a b).wf = true :=
  Memory.wfFrom_write a b h (Nat.zero_le a)

/-- The empty memory of `construct` is canonical. -/
theorem Memory.wf_nil : Memory.wf [] = true := rfl

/-- A write lists no address but the one written and those listed before. -/
theorem Memory.mem_write {a : Nat} {b : Byte} {c : Host.Cell} : ∀ {m : Memory}, c ∈ m.write a b → c.1 = a ∨ c ∈ m
  | [], h => by
    unfold Memory.write Memory.cell at h
    split at h <;> simp_all
  | (a', b') :: m, h => by
    have hcell : ∀ m' : Memory, c ∈ Memory.cell a b ++ m' → c.1 = a ∨ c ∈ m' := by
      intro m' h'
      unfold Memory.cell at h'
      split at h' <;> simp_all
      rcases h' with h' | h' <;> simp_all
    simp only [Memory.write] at h
    split at h
    · exact hcell _ h
    · split at h
      · rcases hcell _ h with h' | h'
        · exact .inl h'
        · exact .inr (List.mem_cons_of_mem _ h')
      · rcases List.mem_cons.1 h with h' | h'
        · exact .inr (h' ▸ List.mem_cons_self)
        · rcases Memory.mem_write h' with h'' | h''
          · exact .inl h''
          · exact .inr (List.mem_cons_of_mem _ h'')

end Sys2Proof.Machine
end

