-- ==== Sys2Proof/Laws/State.lean ====
section
/-! SUPPORT. One lemma per field per update of State, and how the update functions meet the accessors, so that no proof
unfolds a record update. -/

namespace Sys2Proof.Machine

/-! ## writeReg -/
@[simp] theorem State.writeReg_x (s : State) (n : Nat) (v : Word) : (s.writeReg n v).x = s.x.set n v := rfl
@[simp] theorem State.writeReg_mem (s : State) (n : Nat) (v : Word) : (s.writeReg n v).mem = s.mem := rfl
@[simp] theorem State.writeReg_config (s : State) (n : Nat) (v : Word) : (s.writeReg n v).config = s.config := rfl
@[simp] theorem State.writeReg_phase (s : State) (n : Nat) (v : Word) : (s.writeReg n v).phase = s.phase := rfl
@[simp] theorem State.writeReg_pending (s : State) (n : Nat) (v : Word) : (s.writeReg n v).pending = s.pending := rfl
@[simp] theorem State.writeReg_result (s : State) (n : Nat) (v : Word) : (s.writeReg n v).result = s.result := rfl
@[simp] theorem State.writeReg_byte (s : State) (n : Nat) (v : Word) (a : Nat) : (s.writeReg n v).byte a = s.byte a := rfl

/-! ## withMem -/
@[simp] theorem State.withMem_x (s : State) (m : Memory) : (s.withMem m).x = s.x := rfl
@[simp] theorem State.withMem_mem (s : State) (m : Memory) : (s.withMem m).mem = m := rfl
@[simp] theorem State.withMem_config (s : State) (m : Memory) : (s.withMem m).config = s.config := rfl
@[simp] theorem State.withMem_phase (s : State) (m : Memory) : (s.withMem m).phase = s.phase := rfl
@[simp] theorem State.withMem_pending (s : State) (m : Memory) : (s.withMem m).pending = s.pending := rfl
@[simp] theorem State.withMem_result (s : State) (m : Memory) : (s.withMem m).result = s.result := rfl
@[simp] theorem State.withMem_reg (s : State) (m : Memory) (n : Nat) : (s.withMem m).reg n = s.reg n := rfl
@[simp] theorem State.withMem_byte (s : State) (m : Memory) (a : Nat) : (s.withMem m).byte a = m.read a := rfl

/-! ## answer -/
@[simp] theorem State.answer_x (s : State) (r : Result) : (s.answer r).x = s.x := rfl
@[simp] theorem State.answer_mem (s : State) (r : Result) : (s.answer r).mem = s.mem := rfl
@[simp] theorem State.answer_config (s : State) (r : Result) : (s.answer r).config = s.config := rfl
@[simp] theorem State.answer_phase (s : State) (r : Result) : (s.answer r).phase = s.phase := rfl
@[simp] theorem State.answer_pending (s : State) (r : Result) : (s.answer r).pending = s.pending := rfl
@[simp] theorem State.answer_result (s : State) (r : Result) : (s.answer r).result = some r := rfl
@[simp] theorem State.answer_reg (s : State) (r : Result) (n : Nat) : (s.answer r).reg n = s.reg n := rfl
@[simp] theorem State.answer_byte (s : State) (r : Result) (a : Nat) : (s.answer r).byte a = s.byte a := rfl

/-! ## withPending -/
@[simp] theorem State.withPending_x (s : State) (q : List Transaction) : (s.withPending q).x = s.x := rfl
@[simp] theorem State.withPending_mem (s : State) (q : List Transaction) : (s.withPending q).mem = s.mem := rfl
@[simp] theorem State.withPending_config (s : State) (q : List Transaction) : (s.withPending q).config = s.config := rfl
@[simp] theorem State.withPending_phase (s : State) (q : List Transaction) : (s.withPending q).phase = s.phase := rfl
@[simp] theorem State.withPending_pending (s : State) (q : List Transaction) : (s.withPending q).pending = q := rfl
@[simp] theorem State.withPending_result (s : State) (q : List Transaction) : (s.withPending q).result = s.result := rfl
@[simp] theorem State.withPending_reg (s : State) (q : List Transaction) (n : Nat) : (s.withPending q).reg n = s.reg n := rfl
@[simp] theorem State.withPending_byte (s : State) (q : List Transaction) (a : Nat) : (s.withPending q).byte a = s.byte a := rfl
@[simp] theorem State.withPending_self (s : State) : s.withPending s.pending = s := rfl
@[simp] theorem State.withPending_withPending (s : State) (p q : List Transaction) :
    (s.withPending p).withPending q = s.withPending q := rfl

/-! ## constructed -/
@[simp] theorem State.constructed_x (c : Config) : (State.constructed c).x = seedRegs c.regCount := rfl
@[simp] theorem State.constructed_mem (c : Config) : (State.constructed c).mem = [] := rfl
@[simp] theorem State.constructed_config (c : Config) : (State.constructed c).config = c := rfl
@[simp] theorem State.constructed_phase (c : Config) : (State.constructed c).phase = .constructed := rfl
@[simp] theorem State.constructed_result (c : Config) : (State.constructed c).result = some (.ok .block) := rfl
@[simp] theorem State.constructed_byte (c : Config) (a : Nat) : (State.constructed c).byte a = unwrittenByte := rfl

/-! ## Registers -/

/-- Reading a register the file holds, right after writing it. -/
theorem State.writeReg_reg_self (s : State) (n : Nat) (v : Word) (h : n < s.x.length) : (s.writeReg n v).reg n = v := by
  simp [State.reg, State.writeReg, h]

/-- A register write leaves every other register alone. -/
theorem State.writeReg_reg_other (s : State) (n k : Nat) (v : Word) (h : k ≠ n) : (s.writeReg n v).reg k = s.reg k := by
  simp [State.reg, State.writeReg, List.getElem?_set_ne h.symm]

/-- Every register after a write holds the written value or what it held before. -/
theorem State.writeReg_reg_or (s : State) (n k : Nat) (v : Word) :
    (s.writeReg n v).reg k = v ∨ (s.writeReg n v).reg k = s.reg k := by
  by_cases h : k = n
  · subst h
    by_cases hk : k < s.x.length
    · exact .inl (s.writeReg_reg_self k v hk)
    · exact .inr (by simp [State.reg, State.writeReg, List.set_eq_of_length_le (Nat.le_of_not_lt hk)])
  · exact .inr (s.writeReg_reg_other n k v h)

/-- The seed of register i, below the number of registers. -/
theorem State.constructed_reg (c : Config) (i : Nat) (h : i < c.regCount) : (State.constructed c).reg i = seed i := by
  simp [State.reg, State.constructed, seedRegs, h]

end Sys2Proof.Machine
end

