-- ==== Sys2Proof/Laws/Ops.lean ====
section
/-! SUPPORT. One lemma for each shared operation, saying once everything it can do. -/

namespace Sys2Proof.Machine

/-! ## The memory primitives -/

theorem inBounds_iff (s : State) (addr : Word) : inBounds s addr = true ↔ addr.toNat < s.config.memSize := by
  simp [inBounds]

/-- What `MemRead` can answer. -/
theorem memRead_cases (s : State) (addr : Word) :
    (addr.toNat < s.config.memSize ∧ memRead s addr = .ok (s.byte addr.toNat)) ∨
    (s.config.memSize ≤ addr.toNat ∧ memRead s addr = .error (.memoryOverflow addr)) := by
  by_cases h : addr.toNat < s.config.memSize
  · exact .inl ⟨h, by simp [memRead, inBounds, h]⟩
  · exact .inr ⟨Nat.le_of_not_lt h, by simp [memRead, inBounds, h]⟩

/-- What `MemWrite` can answer. -/
theorem memWrite_cases (s : State) (addr : Word) (v : Byte) :
    (addr.toNat < s.config.memSize ∧ memWrite s addr v = .ok (s.withMem (s.mem.write addr.toNat v))) ∨
    (s.config.memSize ≤ addr.toNat ∧ memWrite s addr v = .error (.memoryOverflow addr)) := by
  by_cases h : addr.toNat < s.config.memSize
  · exact .inl ⟨h, by simp [memWrite, inBounds, h]⟩
  · exact .inr ⟨Nat.le_of_not_lt h, by simp [memWrite, inBounds, h]⟩

/-! ## How a transaction ends -/

theorem respond_eq (r : Result) (s : State) : respond r s = .next (s.answer r) := rfl

theorem raise_eq (e : Error) (s : State) : raise e s = .next (s.answer (.err e)) := rfl

theorem complete_eq (s : State) : complete s = .next (s.answer (.ok .unit)) := rfl

/-! ## Operands -/

theorem zext32_toNat (b : Byte) : (zext32 b).toNat = b.toNat := by
  have := b.isLt
  simp [zext32]
  omega

theorem lowByte_toNat (v : Word) : (lowByte v).toNat = v.toNat % 256 := by
  simp [lowByte]

theorem zext32_getLsbD (b : Byte) (k : Nat) : (zext32 b).getLsbD k = b.getLsbD k := by
  simp only [zext32, BitVec.getLsbD_setWidth]
  by_cases h : k < 32
  · simp [h]
  · simp [h, BitVec.getLsbD_of_ge b k (by omega)]

theorem addOverflows_iff (l r : Word) : addOverflows l r = true ↔ 0xFFFFFFFF < l.toNat + r.toNat := by
  simp [addOverflows]

/-- Where ADD does not overflow, its sum is the mathematical sum. -/
theorem add_toNat_of_not_overflows {l r : Word} (h : addOverflows l r = false) : (l + r).toNat = l.toNat + r.toNat := by
  simp only [addOverflows, decide_eq_false_iff_not] at h
  rw [BitVec.toNat_add, Nat.mod_eq_of_lt]
  omega

/-- What every `execute` does first: it refuses an unvalidated instruction, raises `UnsupportedOpCode`, or runs the body. -/
theorem dispatched_cases (op : OpCode) (a b : RegIdx) (s : State) (body : Host.Outcome State Fault Refusal) :
    (¬ (s.config.RegInRange a ∧ s.config.RegInRange b) ∧
      dispatched op a b s body = .refused .unvalidatedInstruction) ∨
    (s.config.RegInRange a ∧ s.config.RegInRange b ∧ implemented s.config op = false ∧
      dispatched op a b s body = raise (.unsupportedOpCode op) s) ∨
    (s.config.RegInRange a ∧ s.config.RegInRange b ∧ implemented s.config op = true ∧
      dispatched op a b s body = body) := by
  unfold dispatched
  by_cases h : s.config.RegInRange a ∧ s.config.RegInRange b
  · by_cases hi : implemented s.config op = true
    · exact .inr (.inr ⟨h.1, h.2, hi, by simp [h, hi]⟩)
    · exact .inr (.inl ⟨h.1, h.2, by simpa using hi, by simp [h, hi]⟩)
  · exact .inl ⟨h, by rw [if_pos h]⟩

/-- A validated, implemented instruction runs its body. -/
theorem dispatched_of_valid {op : OpCode} {a b : RegIdx} {s : State} (body : Host.Outcome State Fault Refusal)
    (ha : s.config.RegInRange a) (hb : s.config.RegInRange b) (hi : implemented s.config op = true) :
    dispatched op a b s body = body := by
  unfold dispatched
  rw [if_neg (not_not_intro ⟨ha, hb⟩), if_pos hi]

/-! ## Transactions -/

theorem onBlock_constructed {s : State} (body : Host.Outcome State Fault Refusal) (h : s.phase = .constructed) :
    onBlock s body = body := by
  unfold onBlock
  rw [h]

theorem onBlock_dropped {s : State} (body : Host.Outcome State Fault Refusal) (h : s.phase = .dropped) :
    onBlock s body = .fault .noBlock := by
  unfold onBlock
  rw [h]

/-- A step with a transaction in the queue is that transaction. -/
theorem step_of_pending {s : State} {t : Transaction} {rest : List Transaction} (h : s.pending = t :: rest) :
    step s = transact t (s.withPending rest) := by
  unfold step
  rw [h]

end Sys2Proof.Machine
end

