-- ==== Sys2Proof/Laws/Exec.lean ====
section
/-! SUPPORT. What `execute` and a step can do, said once: the provers cite these instead of unfolding the meanings. -/

namespace Sys2Proof.Machine

/-- The next states `execute` can answer: an error with nothing changed, one register written, or one byte stored. -/
inductive ExecNext (i : Instr) (s : State) : State → Prop where
  | raised (e : Error) : ExecNext i s (s.answer (.err e))
  | wrote (v : Word) (h : i.opcode ≠ .stw) : ExecNext i s ((s.writeReg i.op0.toNat v).answer (.ok .unit))
  | stored (h : i.opcode = .stw) (ha : (s.reg i.op1.toNat).toNat < s.config.memSize) :
      ExecNext i s ((s.withMem (s.mem.write (s.reg i.op1.toNat).toNat (lowByte (s.reg i.op0.toNat)))).answer (.ok .unit))

/-- `execute` refuses an unvalidated instruction and nothing else, and otherwise answers one of the next states above. -/
theorem exec_cases (i : Instr) (s : State) :
    (¬ i.WellFormed s.config ∧ exec i s = .refused .unvalidatedInstruction) ∨
    (i.WellFormed s.config ∧ ∃ t, exec i s = .next t ∧ ExecNext i s t) := by
  have key : ∀ (op : OpCode) (body : Host.Outcome State Fault Refusal) (_ : exec i s = dispatched op i.op0 i.op1 s body)
      (_ : ∃ t, body = .next t ∧ ExecNext i s t),
      (¬ i.WellFormed s.config ∧ exec i s = .refused .unvalidatedInstruction) ∨
      (i.WellFormed s.config ∧ ∃ t, exec i s = .next t ∧ ExecNext i s t) := by
    intro op body he hb
    rw [he]
    rcases dispatched_cases op i.op0 i.op1 s body with ⟨h, hd⟩ | ⟨h0, h1, _, hd⟩ | ⟨h0, h1, _, hd⟩ <;> rw [hd]
    · exact .inl ⟨h, rfl⟩
    · exact .inr ⟨⟨h0, h1⟩, _, rfl, .raised _⟩
    · exact .inr ⟨⟨h0, h1⟩, hb⟩
  cases i with
  | ldw d a =>
    refine key .ldw _ rfl ?_
    rcases memRead_cases s (effectiveAddress s a) with ⟨_, h⟩ | ⟨_, h⟩ <;> rw [h]
    · exact ⟨_, rfl, .wrote _ (by simp [Instr.opcode])⟩
    · exact ⟨_, rfl, .raised _⟩
  | stw v a =>
    refine key .stw _ rfl ?_
    rcases memWrite_cases s (effectiveAddress s a) (lowByte (regOperand s v)) with ⟨hb, h⟩ | ⟨_, h⟩ <;> rw [h]
    · exact ⟨_, rfl, .stored rfl hb⟩
    · exact ⟨_, rfl, .raised _⟩
  | add d r =>
    refine key .add _ rfl ?_
    split
    · exact ⟨_, rfl, .raised _⟩
    · exact ⟨_, rfl, .wrote _ (by simp [Instr.opcode])⟩
  | xor d r => exact key .xor _ rfl ⟨_, rfl, .wrote _ (by simp [Instr.opcode])⟩

/-- The next state of a validated `execute`. -/
theorem exec_next {i : Instr} {s t : State} (h : exec i s = .next t) : ExecNext i s t := by
  rcases exec_cases i s with ⟨_, hr⟩ | ⟨_, u, hu, hn⟩
  · rw [hr] at h; cases h
  · rw [hu] at h; cases h; exact hn

/-! ## The meanings, evaluated -/

/-- LDW with its checks passed. -/
theorem execLdw_in_bounds {d a : RegIdx} {s : State} (hd : s.config.RegInRange d) (ha : s.config.RegInRange a)
    (hl : s.config.loadStoreEnabled = true) (hb : (s.reg a.toNat).toNat < s.config.memSize) :
    exec (.ldw d a) s =
      .next ((s.writeReg d.toNat (zext32 (s.byte (s.reg a.toNat).toNat))).answer (.ok .unit)) := by
  change execLdw d a s = _
  unfold execLdw
  rw [dispatched_of_valid (op := .ldw) _ hd ha hl]
  rcases memRead_cases s (effectiveAddress s a) with ⟨_, h⟩ | ⟨h, _⟩
  · rw [h]; rfl
  · exact absurd hb (Nat.not_lt.2 h)

/-- STW with its checks passed. -/
theorem execStw_in_bounds {v a : RegIdx} {s : State} (hv : s.config.RegInRange v) (ha : s.config.RegInRange a)
    (hl : s.config.loadStoreEnabled = true) (hb : (s.reg a.toNat).toNat < s.config.memSize) :
    exec (.stw v a) s =
      .next ((s.withMem (s.mem.write (s.reg a.toNat).toNat (lowByte (s.reg v.toNat)))).answer (.ok .unit)) := by
  change execStw v a s = _
  unfold execStw
  rw [dispatched_of_valid (op := .stw) _ hv ha hl]
  rcases memWrite_cases s (effectiveAddress s a) (lowByte (regOperand s v)) with ⟨_, h⟩ | ⟨h, _⟩
  · rw [h]; rfl
  · exact absurd hb (Nat.not_lt.2 h)

/-- ADD whose sum fits. -/
theorem execAdd_fits {d r : RegIdx} {s : State} (hd : s.config.RegInRange d) (hr : s.config.RegInRange r)
    (h : (s.reg d.toNat).toNat + (s.reg r.toNat).toNat ≤ 0xFFFFFFFF) :
    exec (.add d r) s = .next ((s.writeReg d.toNat (s.reg d.toNat + s.reg r.toNat)).answer (.ok .unit)) := by
  change execAdd d r s = _
  unfold execAdd
  rw [dispatched_of_valid _ hd hr rfl, if_neg]
  · rfl
  · rw [addOverflows_iff]
    exact Nat.not_lt.2 h

/-- ADD whose sum does not fit. -/
theorem execAdd_overflows {d r : RegIdx} {s : State} (hd : s.config.RegInRange d) (hr : s.config.RegInRange r)
    (h : 0xFFFFFFFF < (s.reg d.toNat).toNat + (s.reg r.toNat).toNat) :
    exec (.add d r) s = .next (s.answer (.err (.additionOverflow (s.reg d.toNat) (s.reg r.toNat)))) := by
  change execAdd d r s = _
  unfold execAdd
  rw [dispatched_of_valid _ hd hr rfl, if_pos ((addOverflows_iff (regOperand s d) (regOperand s r)).2 h)]
  rfl

/-- XOR. -/
theorem execXor_eq {d r : RegIdx} {s : State} (hd : s.config.RegInRange d) (hr : s.config.RegInRange r) :
    exec (.xor d r) s = .next ((s.writeReg d.toNat (s.reg d.toNat ^^^ s.reg r.toNat)).answer (.ok .unit)) := by
  change execXor d r s = _
  unfold execXor
  rw [dispatched_of_valid _ hd hr rfl]
  rfl

/-- An instruction that writes a register, with its checks passed: that one register, and the answer `Ok(())`. -/
theorem exec_of_writes {i : Instr} {s : State} {v : Word} (hw : i.WellFormed s.config) (h : s.Writes i v) :
    exec i s = .next ((s.writeReg i.op0.toNat v).answer (.ok .unit)) := by
  cases i with
  | add d r =>
    have h : v.toNat = (s.reg d.toNat).toNat + (s.reg r.toNat).toNat := h
    have hv := v.isLt
    have e : v = s.reg d.toNat + s.reg r.toNat := by
      apply BitVec.eq_of_toNat_eq
      rw [BitVec.toNat_add, ← h, Nat.mod_eq_of_lt hv]
    rw [e]
    exact execAdd_fits hw.1 hw.2 (by omega)
  | xor d r =>
    rw [show v = s.reg d.toNat ^^^ s.reg r.toNat from h]
    exact execXor_eq hw.1 hw.2
  | ldw d a =>
    obtain ⟨hl, hb, hv⟩ := h
    have e : v = zext32 (s.byte (s.reg a.toNat).toNat) := by
      apply BitVec.eq_of_toNat_eq
      rw [zext32_toNat, hv]
    rw [e]
    exact execLdw_in_bounds hw.1 hw.2 hl hb
  | stw d a => exact h.elim

/-! ## The step -/

/-- A step whose transaction is `execute`. -/
theorem step_execute {s : State} {i : Instr} {rest : List Transaction} (h : s.phase = .constructed)
    (hp : s.pending = .execute i :: rest) : step s = exec i (s.withPending rest) := by
  rw [step_of_pending hp]
  exact onBlock_constructed _ (by exact h)

/-- A run begins with its first step. -/
theorem run_succ {s t : State} (k : Nat) (h : step s = .next t) : run (k + 1) s = run k t := by
  conv => lhs; unfold run
  rw [h]

theorem run_zero (s : State) : run 0 s = .next s := rfl

/-! ## What the next transaction executes -/

/-- The instruction a transaction runs under a configuration. -/
theorem nextInstr_eq_some {s : State} {t : Transaction} {rest : List Transaction} {i : Instr}
    (h : s.phase = .constructed) (hp : s.pending = t :: rest) :
    s.nextInstr = some i ↔ t.Runs s.config i := by
  unfold State.nextInstr
  rw [h]
  simp only
  rw [hp]
  cases t with
  | step w => cases hd : decode s.config w <;> simp [Transaction.Runs, hd]
  | execute j => simp [Transaction.Runs, eq_comm]
  | _ => simp [Transaction.Runs]

/-- A step whose transaction runs an instruction is `exec` of it, whether it was submitted as a word or decoded before. -/
theorem step_of_runs {s : State} {t : Transaction} {rest : List Transaction} {i : Instr} (h : s.phase = .constructed)
    (hp : s.pending = t :: rest) (hr : t.Runs s.config i) : step s = exec i (s.withPending rest) := by
  rcases hr with rfl | ⟨w, rfl, hd⟩
  · exact step_execute h hp
  · rw [step_of_pending hp]
    change onBlock (s.withPending rest) (doStep w (s.withPending rest)) = _
    rw [onBlock_constructed _ (by exact h)]
    unfold doStep
    rw [State.withPending_config, hd]

/-- A dropped block and an empty queue execute nothing. -/
theorem nextInstr_dropped {s : State} (h : s.phase = .dropped) : s.nextInstr = none := by
  unfold State.nextInstr
  rw [h]

theorem nextInstr_idle {s : State} (h : s.pending = []) : s.nextInstr = none := by
  unfold State.nextInstr
  rw [h]
  cases s.phase <;> rfl

/-- The next states a step can answer. -/
inductive StepNext (s : State) : State → Prop where
  | idled (h : s.pending = []) : StepNext s s
  | constructed (ceiling size : Nat) (rest : List Transaction) (hp : s.pending = .construct ceiling size :: rest)
      (hc : Config.LegalCeiling ceiling) (hm : Config.LegalMemSize size) :
      StepNext s ((State.constructed (constructConfig s.config ceiling size)).withPending rest)
  | dropped (rest : List Transaction) (hp : s.pending = .drop :: rest) (h : s.phase = .constructed) :
      StepNext s { s with x := [], mem := [], phase := .dropped, pending := rest, result := none }
  | answered (t : Transaction) (rest : List Transaction) (r : Result) (hp : s.pending = t :: rest)
      (h : s.phase = .constructed) (hi : s.nextInstr = none) : StepNext s ((s.withPending rest).answer r)
  | executed (t : Transaction) (rest : List Transaction) (i : Instr) (u : State) (hp : s.pending = t :: rest)
      (h : s.phase = .constructed) (hi : s.nextInstr = some i)
      (he : exec i (s.withPending rest) = .next u) : StepNext s u

/-- A step that answers a next state did one of these. -/
theorem step_next {s u : State} (h : step s = .next u) : StepNext s u := by
  cases hp : s.pending with
  | nil =>
    unfold step at h
    rw [hp] at h
    cases h
    exact .idled hp
  | cons t rest =>
    rw [step_of_pending hp] at h
    have hphase : ∀ body, onBlock (s.withPending rest) body = .next u → s.phase = .constructed ∧ body = .next u := by
      intro body hb
      cases hs : s.phase with
      | constructed => rw [onBlock_constructed (s := s.withPending rest) body hs] at hb; exact ⟨rfl, hb⟩
      | dropped => rw [onBlock_dropped (s := s.withPending rest) body hs] at hb; cases hb
    cases t with
    | construct ceiling size =>
      simp only [transact, doConstruct] at h
      split at h
      · next hl => cases h; exact .constructed ceiling size rest hp hl.1 hl.2
      · cases h
    | decode w =>
      obtain ⟨hc, hb⟩ := hphase _ h
      have hn : s.nextInstr = none := by
        refine Option.eq_none_iff_forall_ne_some.2 fun i => ?_
        simp [Transaction.Runs, nextInstr_eq_some hc hp]
      unfold doDecode at hb
      split at hb <;> (cases hb; exact .answered _ rest _ hp hc hn)
    | execute i =>
      obtain ⟨hc, hb⟩ := hphase _ h
      exact .executed _ rest i u hp hc ((nextInstr_eq_some hc hp).2 (.inl rfl)) hb
    | registerRead index =>
      obtain ⟨hc, hb⟩ := hphase _ h
      have hn : s.nextInstr = none := by
        refine Option.eq_none_iff_forall_ne_some.2 fun i => ?_
        simp [Transaction.Runs, nextInstr_eq_some hc hp]
      unfold doRegisterRead at hb
      split at hb <;> (cases hb; exact .answered _ rest _ hp hc hn)
    | step w =>
      obtain ⟨hc, hb⟩ := hphase _ h
      unfold doStep at hb
      split at hb
      · next e he =>
        have he : decode s.config w = .error e := he
        have hn : s.nextInstr = none := by
          refine Option.eq_none_iff_forall_ne_some.2 fun i => ?_
          simp [Transaction.Runs, nextInstr_eq_some hc hp, he]
        cases hb
        exact .answered _ rest _ hp hc hn
      · next i hi => exact .executed _ rest i u hp hc ((nextInstr_eq_some hc hp).2 (.inr ⟨w, rfl, hi⟩)) hb
    | drop =>
      obtain ⟨hc, hb⟩ := hphase _ h
      cases hb
      exact .dropped rest hp hc

end Sys2Proof.Machine
end

