-- ==== Sys2Proof/Laws/PerInstr.lean ====
section
/-! SUPPORT. The per-instruction family `Fields`: where the encoder puts the three fields of each instruction, and that it
leaves bits [31:16] zero (spec/30_encoding.md R71, R83). -/

namespace Sys2Proof

/-- The three fields of an encoded word, read back, and the word's upper half. -/
theorem encode_fields (m : OpcodeTags) (i : Instr) :
    tagField (encode m i) = m.tagOf i.opcode ∧ op0Field (encode m i) = i.op0 ∧ op1Field (encode m i) = i.op1 ∧
    (encode m i).extractLsb' 16 16 = 0#16 := by
  refine ⟨?_, ?_, ?_, ?_⟩
  · ext k hk
    simp only [tagField, encode]
    interval_cases k <;> simp
  · ext k hk
    simp only [op0Field, encode]
    interval_cases k <;> simp
  · ext k hk
    simp only [op1Field, encode]
    interval_cases k <;> simp
  · ext k hk
    simp only [encode]
    interval_cases k <;> simp

/-- What the family says of one instruction. -/
def Laws.Fields.Statement (i : Instr) : Prop :=
  ∀ m : OpcodeTags, tagField (encode m i) = m.tagOf i.opcode ∧ op0Field (encode m i) = i.op0 ∧
    op1Field (encode m i) = i.op1 ∧ (encode m i).extractLsb' 16 16 = 0#16

theorem Laws.Fields.ldw (op0 op1 : RegIdx) : Laws.Fields.Statement (.ldw op0 op1) := fun m => encode_fields m _
theorem Laws.Fields.stw (op0 op1 : RegIdx) : Laws.Fields.Statement (.stw op0 op1) := fun m => encode_fields m _
theorem Laws.Fields.add (op0 op1 : RegIdx) : Laws.Fields.Statement (.add op0 op1) := fun m => encode_fields m _
theorem Laws.Fields.xor (op0 op1 : RegIdx) : Laws.Fields.Statement (.xor op0 op1) := fun m => encode_fields m _

end Sys2Proof
end

