-- ==== Sys2Proof/Tests/Slice0.lean ====
section
/-! SUPPORT. The model's own tests. Expected values come from spec/95_test_vectors.md (the vector's id is named) or from hand
calculation with the rule named; a witness shows that the hypotheses of a statement can be met. -/

namespace Sys2Proof.Tests

open Sys2Proof.Machine

/-! ## Helpers -/

/-- The next state of an outcome, if it has one. -/
def next? : Host.Outcome State Fault Refusal → Option State
  | .next s => some s
  | _ => none

/-- A constructed block of this hardware with given registers over the seeds, given memory and a given queue. -/
def block (regs : List (Nat × Word)) (m : Memory) (q : List Transaction) : State :=
  { x := regs.foldl (fun x p => x.set p.1 p.2) (seedRegs 32), mem := m, config := hwConfig, phase := .constructed,
    pending := q, result := none }

/-- The configuration with ceiling 7. -/
def small : Config := { hwConfig with regCeiling := 7 }

/-- The configuration without load/store. -/
def noLoadStore : Config := { hwConfig with loadStoreEnabled := false }

theorem foldl_set_length (regs : List (Nat × Word)) : ∀ x : List Word,
    (regs.foldl (fun x p => x.set p.1 p.2) x).length = x.length := by
  induction regs with
  | nil => intro x; rfl
  | cons p ps ih => intro x; rw [List.foldl_cons, ih, List.length_set]

/-- Such a block meets the invariant, if its memory does. -/
theorem block_operable (regs : List (Nat × Word)) (m : Memory) (q : List Transaction) (hm : m.wf = true)
    (hb : ∀ c ∈ m, c.1 < 4096) : (block regs m q).Operable := by
  have hc : hwConfig.WellFormed := by decide
  exact ⟨⟨hc, fun _ => foldl_set_length regs (seedRegs 32), hm, hb, fun h => by cases h⟩, rfl⟩

/-- A block whose memory is all zero. -/
theorem block_operable_nil (regs : List (Nat × Word)) (q : List Transaction) : (block regs [] q).Operable :=
  block_operable regs [] q rfl (fun _ h => by cases h)

/-! ## Well-formedness: a term that each check refuses -/

theorem test_wf_hardware : hwConfig.WellFormed := by decide
theorem test_wf_small : small.WellFormed := by decide
theorem test_wf_rejects_ceiling : ¬ ({ hwConfig with regCeiling := 15 } : Config).WellFormed := by decide
theorem test_wf_rejects_empty_memory : ¬ ({ hwConfig with memSize := 0 } : Config).WellFormed := by decide
theorem test_wf_rejects_large_memory : ¬ ({ hwConfig with memSize := 2 ^ 32 + 1 } : Config).WellFormed := by decide
theorem test_wf_rejects_shared_tag : ¬ ({ hwTags with xor := 0x00#6 } : OpcodeTags).WellFormed := by decide
theorem test_wf_rejects_other_add_tag : ¬ ({ hwTags with add := 0x04#6 } : OpcodeTags).WellFormed := by decide
theorem test_wf_rejects_mapped_top_tag : ¬ ({ hwTags with xor := 0x3F#6 } : OpcodeTags).WellFormed := by decide
theorem test_wf_rejects_op0 : ¬ (Instr.add 8#5 0#5).WellFormed small := by decide
theorem test_wf_rejects_op1 : ¬ (Instr.add 0#5 8#5).WellFormed small := by decide
theorem test_memory_wf_rejects_order : Memory.wf [(5, 1#8), (3, 1#8)] = false := by decide
theorem test_memory_wf_rejects_repeat : Memory.wf [(3, 1#8), (3, 1#8)] = false := by decide
theorem test_memory_wf_rejects_listed_zero : Memory.wf [(3, 0#8)] = false := by decide

/-! ## Decoding and encoding: words written out field by field from R71 -/

/-- op1 = 00011, op0 = 00001, tag = 000010: L1-1. -/
theorem test_decode_add : decode hwConfig 0b00000000000000000001100001000010#32 = .ok (.add 1#5 3#5) := by decide
/-- op1 = 00001, op0 = 00010, tag = 000011, with bits [31:16] = 0x1234: D-4. -/
theorem test_decode_xor : decode hwConfig 0b00010010001101000000100010000011#32 = .ok (.xor 2#5 1#5) := by decide
/-- op1 = 10000, op0 = 00011, tag = 000000: the second word of L1-3. -/
theorem test_decode_ldw : decode hwConfig 0b00000000000000001000000011000000#32 = .ok (.ldw 3#5 16#5) := by decide
/-- op1 = 10000, op0 = 00010, tag = 000001: the first word of L1-3. -/
theorem test_decode_stw : decode hwConfig 0b00000000000000001000000010000001#32 = .ok (.stw 2#5 16#5) := by decide
/-- D-5: the top operand values. -/
theorem test_decode_top_operands : decode hwConfig 0xFFC0#32 = .ok (.ldw 31#5 31#5) := by decide
/-- L1-2. -/
theorem test_decode_invalid_top : decode hwConfig 0x067F#32 = .error (.invalidOpCode 0x3F#6) := by decide
/-- D-9. -/
theorem test_decode_invalid_low : decode hwConfig 0x4#32 = .error (.invalidOpCode 0x04#6) := by decide
/-- D-13: op0 before op1. -/
theorem test_decode_op0_first : decode small 0x4A02#32 = .error .op0OutOfRange := by decide
/-- D-14. -/
theorem test_decode_op1 : decode small 0x4002#32 = .error .op1OutOfRange := by decide
/-- D-15: the tag before the operands. -/
theorem test_decode_tag_first : decode small 0x4A04#32 = .error (.invalidOpCode 0x04#6) := by decide
/-- D-16. -/
theorem test_decode_top_small : decode small 0x39C2#32 = .ok (.add 7#5 7#5) := by decide
/-- P3, word 4. -/
theorem test_encode_add : encode hwTags (.add 31#5 7#5) = 0x3FC2#32 := by decide
/-- P2, word 3. -/
theorem test_encode_stw : encode hwTags (.stw 31#5 16#5) = 0x87C1#32 := by decide
/-- The host's numbering of a table word: only the bits below nbits count. -/
theorem test_table_word : decodeTableWord 32 0x11842 = some (.add 1#5 3#5) := by decide
theorem test_table_word_short : decodeTableWord 8 0x1842 = some (.add 1#5 0#5) := by decide

/-! ## The instructions, at most two each -/

/-- A-4: the largest sum. -/
theorem test_add_largest_sum :
    (next? (exec (.add 1#5 2#5) (block [(1, 0xFFFFFFF0#32), (2, 0xF#32)] [] []))).map (·.reg 1) = some 0xFFFFFFFF#32 := by decide
/-- A-6: overflow, with the payload in operand order and x[1] as before. -/
theorem test_add_overflow :
    (next? (exec (.add 1#5 2#5) (block [(1, 0x1#32), (2, 0xFFFFFFFF#32)] [] []))).map (fun t => (t.reg 1, t.result)) =
      some (0x1#32, some (.err (.additionOverflow 0x1#32 0xFFFFFFFF#32))) := by decide
/-- X-1. -/
theorem test_xor_bits :
    (next? (exec (.xor 1#5 2#5) (block [(1, 0xFFFFFFFF#32), (2, 0x0F0F0F0F#32)] [] []))).map (·.reg 1) =
      some 0xF0F0F0F0#32 := by decide
/-- X-4: the same register twice. -/
theorem test_xor_self :
    (next? (exec (.xor 4#5 4#5) (block [(4, 0xDEADBEEF#32)] [] []))).map (·.reg 4) = some 0#32 := by decide
/-- M-2: the last byte, zero-extended. -/
theorem test_ldw_last_byte :
    (next? (exec (.ldw 1#5 2#5) (block [(1, 0x55#32), (2, 0xFFF#32)] [(0xFFF, 0x80#8)] []))).map (·.reg 1) =
      some 0x80#32 := by decide
/-- M-4: the address is not truncated to 16 bits. -/
theorem test_ldw_no_truncation :
    (next? (exec (.ldw 1#5 2#5) (block [(1, 0x55#32), (2, 0x10000#32)] [(0, 0x20#8)] []))).map (fun t => (t.reg 1, t.result)) =
      some (0x55#32, some (.err (.memoryOverflow 0x10000#32))) := by decide
/-- M-7: one byte, and not its neighbour. -/
theorem test_stw_one_byte :
    (next? (exec (.stw 1#5 2#5) (block [(1, 0x12345678#32), (2, 0x100#32)] [] []))).map (·.mem) =
      some [(0x100, 0x78#8)] := by decide
/-- M-9: address MEM_SIZE is rejected. -/
theorem test_stw_at_size :
    (next? (exec (.stw 1#5 2#5) (block [(1, 0xAB#32), (2, 0x1000#32)] [] []))).map (fun t => (t.mem, t.result)) =
      some ([], some (.err (.memoryOverflow 0x1000#32))) := by decide
/-- M-11: storing zero over 0x55 removes the listed cell. -/
theorem test_store_zero_is_canonical :
    (next? (exec (.stw 16#5 16#5) (block [] [(0x100, 0x55#8)] []))).map (·.mem) = some [] := by decide

/-! ## The transactions -/

/-- L1-1 from reset, through the host's placing of a word. -/
theorem test_step_from_reset :
    (next? (step (State.reset.withFetchWord 32 0x1842))).map (fun t => (t.reg 1, t.result)) =
      some (0x40#32, some (.ok .unit)) := by decide
/-- P-5, first word: an error answers, and the next word still stands. -/
theorem test_step_invalid_goes_on :
    (next? (step (State.reset.withPending [.step 0x067F#32, .step 0x1842#32]))).map (fun t => (t.x, t.pending, t.result)) =
      some (State.reset.x, [.step 0x1842#32], some (.err (.invalidOpCode 0x3F#6))) := by decide
/-- P-3: dispatch before the bound check. -/
theorem test_step_unsupported :
    (next? (step { block [(2, 0x1000#32)] [] [.step 0x1040#32] with config := noLoadStore })).map (·.result) =
      some (some (.err (.unsupportedOpCode .ldw))) := by decide
/-- L1-4: indices 31 and 32. -/
theorem test_register_read_top :
    (next? (step (State.reset.withPending [.registerRead 31#32]))).map (·.result) = some (some (.ok (.word 0x1F0#32))) := by decide
theorem test_register_read_beyond :
    (next? (step (State.reset.withPending [.registerRead 32#32]))).map (·.result) = some (some (.err .op0OutOfRange)) := by decide
/-- The `decode` transaction (R20). -/
theorem test_decode_transaction :
    (next? (step (State.reset.withPending [.decode 0x1842#32]))).map (·.result) =
      some (some (.ok (.instruction (.add 1#5 3#5)))) := by decide
/-- `construct` with ceiling 7 has eight registers, the last 0x70 (R43). -/
theorem test_construct_small :
    (next? (step (State.reset.withPending [.construct 7 1]))).map (fun t => (t.x.length, t.reg 7)) = some (8, 0x70#32) := by decide
/-- The codes of R160. -/
theorem test_result_codes :
    [resultCode (.ok .unit), resultCode (.err (.invalidOpCode 4#6)), resultCode (.err (.unsupportedOpCode .ldw)),
      resultCode (.err .op0OutOfRange), resultCode (.err .op1OutOfRange), resultCode (.err (.additionOverflow 0 0)),
      resultCode (.err (.memoryOverflow 0))] = [0, 1, 2, 3, 4, 5, 6] := by decide
/-- R84: the text of word 0x1842, and the two spellings of a load. -/
theorem test_asm_add : asmLines (.add 1#5 3#5) = ["ADD r1, r3"] := by decide
theorem test_asm_ldw : asmLines (.ldw 6#5 0#5) = ["LDW r6, r0", "LD r6, r0"] := by decide

/-! ## Witnesses: the hypotheses of each statement can be met, at boundary values of its clauses -/

theorem witness_DecodeFollowsTheOrderOfChecks : ∃ (w : Word) (tag : Tag) (a b : RegIdx),
    tag.toNat = w.toNat % 64 ∧ a.toNat = w.toNat / 64 % 32 ∧ b.toNat = w.toNat / 2048 % 32 ∧
    small.tags.lookup tag = some .add ∧ a.toNat = 7 ∧ b.toNat = 8 :=
  ⟨0x41C2#32, 2#6, 7#5, 8#5, by decide, by decide, by decide, by decide, by decide, by decide⟩

theorem witness_DecodeFollowsTheOrderOfChecks_clauses :
    hwTags.lookup 4#6 = none ∧ (0x4#32).toNat % 64 = (4#6).toNat ∧
    ((0x202#32).toNat / 64 % 32 = 8 ∧ small.regCeiling < 8) ∧
    ((0x39C2#32).toNat / 64 % 32 = 7 ∧ (0x39C2#32).toNat / 2048 % 32 = 7 ∧ ¬ small.regCeiling < 7) := by decide

theorem witness_DecodeIgnoresUpperHalf : ∃ v w : Word, v ≠ w ∧ v.toNat % 2 ^ 16 = w.toNat % 2 ^ 16 :=
  ⟨0x1842#32, 0xFFFF1842#32, by decide, by decide⟩

theorem witness_OpcodeMapIsClosed : hwTags.WellFormed := by decide

theorem witness_HardwareRefusesExactlyTheUnmappedTags : ∃ v w : Word, v.toNat % 64 < 4 ∧ 4 ≤ w.toNat % 64 :=
  ⟨3#32, 4#32, by decide, by decide⟩

theorem witness_SmallCeilingRejectsOperands : ∃ u v w : Word, small.regCeiling = 7 ∧
    small.tags.lookup (tagField u) = some .add ∧ 8 ≤ u.toNat / 64 % 32 ∧
    small.tags.lookup (tagField v) = some .add ∧ v.toNat / 64 % 32 < 8 ∧ 8 ≤ v.toNat / 2048 % 32 ∧
    small.tags.lookup (tagField w) = some .add ∧ w.toNat / 64 % 32 < 8 ∧ w.toNat / 2048 % 32 < 8 :=
  ⟨0x202#32, 0x4002#32, 0x39C2#32, by decide⟩

theorem witness_DecodeEncodeRoundTrip : small.tags.WellFormed ∧ (Instr.xor 7#5 0#5).WellFormed small ∧
    decode small 0xFFFF01C3#32 = .ok (.xor 7#5 0#5) := by decide

theorem witness_ConstructBuildsTheResetState : Config.LegalCeiling 7 ∧ Config.LegalMemSize 1 ∧
    Config.LegalCeiling 31 ∧ Config.LegalMemSize (2 ^ 32) ∧
    (block [] [] [.construct 7 1]).pending = .construct 7 1 :: [] := by decide

theorem witness_ConstructForgetsEverything : ∃ s s' : State, s ≠ s' ∧
    s.config.loadStoreEnabled = s'.config.loadStoreEnabled ∧ s.config.tags = s'.config.tags ∧
    s.pending = .construct 31 4096 :: [] ∧ s'.pending = .construct 31 4096 :: [] :=
  ⟨block [] [] [.construct 31 4096], block [(1, 5#32)] [(3, 7#8)] [.construct 31 4096], by decide, rfl, rfl, rfl, rfl⟩

theorem witness_DropDiscardsTheBlock : ∃ s : State, s.phase = .constructed ∧ s.pending = .drop :: [] :=
  ⟨block [] [] [.drop], rfl, rfl⟩

theorem witness_StepRunsTheDecodedInstruction : ∃ s : State, s.phase = .constructed ∧
    s.pending = .step 0x1842#32 :: .step 0x067F#32 :: [] ∧ decode s.config 0x1842#32 = .ok (.add 1#5 3#5) ∧
    decode s.config 0x067F#32 = .error (.invalidOpCode 0x3F#6) :=
  ⟨block [] [] [.step 0x1842#32, .step 0x067F#32], rfl, rfl, by decide, by decide⟩

theorem witness_PlacedWordRunsNext : State.reset.phase = .constructed ∧ State.reset.config = hwConfig ∧
    decodeTableWord 32 0x1842 = some (.add 1#5 3#5) := by decide

theorem witness_IdleStepChangesNothing : State.reset.pending = [] := by decide

theorem witness_RegisterReadAnswers : ∃ s t : State, s.phase = .constructed ∧ t.phase = .constructed ∧
    s.pending = .registerRead 31#32 :: [] ∧ t.pending = .registerRead 32#32 :: [] :=
  ⟨block [] [] [.registerRead 31#32], block [] [] [.registerRead 32#32], rfl, rfl, rfl, rfl⟩

theorem witness_DecodeTransactionAnswers : ∃ s : State, s.phase = .constructed ∧
    s.pending = .decode 0x1842#32 :: [] ∧ decode s.config 0x1842#32 = .ok (.add 1#5 3#5) ∧
    decode s.config 0x4#32 = .error (.invalidOpCode 4#6) :=
  ⟨block [] [] [.decode 0x1842#32], rfl, rfl, by decide, by decide⟩

theorem witness_StepIsDecodeThenExecute : ∃ s : State, s.phase = .constructed ∧
    decode s.config 0x1842#32 = .ok (.add 1#5 3#5) ∧ decode s.config 0x4#32 = .error (.invalidOpCode 4#6) :=
  ⟨State.reset, rfl, by decide, by decide⟩

/-- The clauses of the order before the instruction's own check: an unmapped tag, op0 and op1 just above ceiling 7, an
unimplemented opcode; then a sum of exactly 2^32, and XOR, which has no check. -/
theorem witness_FirstFailingCheckIsReported_clauses :
    hwTags.lookup (tagField 0x4#32) = none ∧
    (small.tags.lookup (tagField 0x202#32) = some .add ∧ small.regCeiling < (op0Field 0x202#32).toNat) ∧
    (small.tags.lookup (tagField 0x4002#32) = some .add ∧ ¬ small.regCeiling < (op0Field 0x4002#32).toNat ∧
      small.regCeiling < (op1Field 0x4002#32).toNat) ∧
    (noLoadStore.tags.lookup (tagField 0x1040#32) = some .ldw ∧ noLoadStore.loadStoreEnabled = false) ∧
    (hwTags.lookup (tagField 0x2102#32) = some .add ∧ op0Field 0x2102#32 = 4#5 ∧ op1Field 0x2102#32 = 4#5 ∧
      2 ^ 32 = ((block [(4, 0x80000000#32)] [] []).reg 4).toNat + ((block [(4, 0x80000000#32)] [] []).reg 4).toNat) ∧
    hwTags.lookup (tagField 0x2103#32) = some .xor := by decide

/-- One word that passes every check of the decoder and fails the instruction's own, at the first address out of bounds. -/
theorem witness_FirstFailingCheckIsReported : ∃ s : State, s.phase = .constructed ∧ s.pending = .step 0x1040#32 :: [] ∧
    s.config.tags.lookup (tagField 0x1040#32) = some .ldw ∧ ¬ s.config.regCeiling < (op0Field 0x1040#32).toNat ∧
    ¬ s.config.regCeiling < (op1Field 0x1040#32).toNat ∧ s.config.loadStoreEnabled = true ∧
    s.config.memSize ≤ (s.reg (op1Field 0x1040#32).toNat).toNat :=
  ⟨block [(2, 0x1000#32)] [] [.step 0x1040#32], rfl, rfl, by decide⟩

/-- A sum of exactly 0xFFFFFFFF, a sum of exactly 2^32, and a word that encodes ADD. -/
theorem witness_AddIsCheckedUnsignedAddition : ∃ (s : State) (w : Word), s.Operable ∧ s.config.RegInRange 1#5 ∧
    s.config.RegInRange 2#5 ∧ s.config.RegInRange 3#5 ∧
    (w.toNat % 64 = 0x02 ∧ w.toNat / 64 % 32 = (1#5).toNat ∧ w.toNat / 2048 % 32 = (2#5).toNat) ∧
    (s.reg 1).toNat + (s.reg 2).toNat = 0xFFFFFFFF ∧ (s.reg 1).toNat + (s.reg 3).toNat = 2 ^ 32 :=
  ⟨block [(1, 0xFFFFFFF0#32), (2, 0xF#32), (3, 0x10#32)] [] [], 0x1042#32, block_operable_nil _ _, by decide⟩

theorem witness_AddCommutesInResultOnly : ∃ s : State, s.Operable ∧ s.config.RegInRange 1#5 ∧ s.config.RegInRange 2#5 ∧
    s.config.RegInRange 4#5 ∧ (s.reg 1).toNat + (s.reg 2).toNat < 2 ^ 32 ∧ 2 ^ 32 ≤ (s.reg 4).toNat + (s.reg 4).toNat :=
  ⟨block [(4, 0x80000000#32)] [] [], block_operable_nil _ _, by decide⟩

theorem witness_XorWritesBitwiseDifference : ∃ s : State, s.Operable ∧ s.config.RegInRange 0#5 ∧ s.config.RegInRange 31#5 :=
  ⟨block [] [] [], block_operable_nil _ _, by decide⟩

theorem witness_XorTwiceRestores : ∃ (s : State) (d r : RegIdx), s.Operable ∧ s.config.RegInRange d ∧
    s.config.RegInRange r ∧ d ≠ r :=
  ⟨block [] [] [], 4#5, 31#5, block_operable_nil _ _, by decide⟩

theorem witness_MemReadIsBounded : ∃ (s : State) (a b : Word), a.toNat < s.config.memSize ∧ ¬ b.toNat < s.config.memSize :=
  ⟨State.reset, 0xFFF#32, 0x1000#32, by decide⟩

theorem witness_MemWriteChangesOneByte : ∃ (s : State) (a b : Word), s.mem.wf = true ∧ a.toNat < s.config.memSize ∧
    ¬ b.toNat < s.config.memSize :=
  ⟨block [] [(0x100, 0x55#8), (0xFFF, 0x80#8)] [], 0xFFF#32, 0x1000#32, by decide⟩

theorem witness_MemoryBoundIsStrict : ∃ (s : State) (a b : Word), a.toNat = s.config.memSize ∧ b.toNat + 1 = s.config.memSize :=
  ⟨State.reset, 0x1000#32, 0xFFF#32, by decide⟩

/-- The last byte of memory. -/
theorem witness_LdwLoadsZeroExtendedByte : ∃ s : State, s.Operable ∧ s.config.RegInRange 1#5 ∧ s.config.RegInRange 2#5 ∧
    s.config.loadStoreEnabled = true ∧ (s.reg 2).toNat < s.config.memSize ∧ (s.reg 2).toNat = 0xFFF :=
  ⟨block [(2, 0xFFF#32)] [(0xFFF, 0x80#8)] [], block_operable _ _ _ (by decide) (by decide), by decide⟩

theorem witness_StwStoresLowByte : ∃ s : State, s.Operable ∧ s.config.RegInRange 1#5 ∧ s.config.RegInRange 2#5 ∧
    s.config.loadStoreEnabled = true ∧ (effectiveAddress s 2#5).toNat < s.config.memSize ∧
    (effectiveAddress s 2#5).toNat = 0xFFF :=
  ⟨block [(2, 0xFFF#32)] [(0x100, 0x80#8)] [], block_operable _ _ _ (by decide) (by decide), by decide⟩

theorem witness_StwDependsOnItsTwoRegistersOnly : ∃ s s' t : State, s.x ≠ s'.x ∧ s.mem = s'.mem ∧ s.config = s'.config ∧
    s.reg 1 = s'.reg 1 ∧ s.reg 2 = s'.reg 2 ∧ exec (.stw 1#5 2#5) s = .next t :=
  ⟨block [] [] [], block [(5, 0x77#32)] [] [], _, by decide, rfl, rfl, by decide, by decide, rfl⟩

theorem witness_LoadStoreOutOfBoundsReportsTheAddress : ∃ s : State, (Instr.stw 1#5 2#5).WellFormed s.config ∧
    s.config.loadStoreEnabled = true ∧ s.config.memSize ≤ (s.reg 2).toNat ∧ (s.reg 2).toNat = 4096 :=
  ⟨block [(2, 0x1000#32)] [] [], by decide⟩

theorem witness_StoreThenLoadRoundTrips : ∃ s : State, s.Operable ∧ s.config.RegInRange 2#5 ∧ s.config.RegInRange 16#5 ∧
    s.config.RegInRange 3#5 ∧ s.config.loadStoreEnabled = true ∧ (s.reg 16).toNat < s.config.memSize ∧
    s.pending = .execute (.stw 2#5 16#5) :: .execute (.ldw 3#5 16#5) :: [] :=
  ⟨block [(2, 0xAB#32)] [] [.execute (.stw 2#5 16#5), .execute (.ldw 3#5 16#5)], block_operable_nil _ _, by decide⟩

/-- A run of one store, ending in a state that can load. -/
theorem witness_LoadReturnsTheLatestStore : ∃ (s t : State) (l : List (Nat × Byte)), s.mem.wf = true ∧
    RunStoring s l t ∧ l = [(0x100, 0xA0#8)] ∧ t.Operable ∧ t.config.loadStoreEnabled = true ∧
    (t.reg 16).toNat < t.config.memSize := by
  refine ⟨block [] [] [.step 0x8281#32], _, _, rfl, .step [] _ _ .start rfl rfl, by decide, ?_, by decide, by decide⟩
  exact ⟨⟨by decide, fun _ => by decide, by decide, by decide, fun h => by cases h⟩, rfl⟩

theorem witness_DisabledLoadStoreIsUnsupported : ∃ s s' : State, (Instr.ldw 1#5 2#5).WellFormed s.config ∧
    s.config.loadStoreEnabled = false ∧ (Instr.stw 31#5 31#5).WellFormed s'.config ∧ s'.config.loadStoreEnabled = true :=
  ⟨{ block [] [] [] with config := noLoadStore }, block [] [] [], by decide⟩

/-- ADD, LDW and STW each answer an error somewhere, LDW also without load/store. -/
theorem witness_ErrorsOfEachInstruction : ∃ s a b c d : State, exec (.add 4#5 4#5) s = .next a ∧
    exec (.ldw 1#5 2#5) s = .next b ∧ exec (.stw 1#5 2#5) s = .next c ∧
    exec (.ldw 1#5 2#5) { s with config := noLoadStore } = .next d ∧
    a.result = some (.err (.additionOverflow 0x80000000#32 0x80000000#32)) ∧
    b.result = some (.err (.memoryOverflow 0x1000#32)) ∧ c.result = some (.err (.memoryOverflow 0x1000#32)) ∧
    d.result = some (.err (.unsupportedOpCode .ldw)) :=
  ⟨block [(2, 0x1000#32), (4, 0x80000000#32)] [] [], _, _, _, _, rfl, rfl, rfl, rfl, rfl, rfl, rfl, rfl⟩

theorem witness_ExecuteIsAllOrNothing : ∃ s t u v : State, exec (.xor 1#5 2#5) s = .next t ∧
    exec (.stw 1#5 2#5) s = .next u ∧ exec (.add 4#5 4#5) s = .next v ∧ v.result ≠ t.result :=
  ⟨block [(4, 0x80000000#32)] [] [], _, _, _, rfl, rfl, rfl, by decide⟩

theorem witness_ErrorsChangeNothing : ∃ (s t : State) (e : Error), step s = .next t ∧ t.result = some (.err e) :=
  ⟨block [] [] [.registerRead 32#32], _, _, rfl, rfl⟩

theorem witness_EarlierResultsDoNotMatter : (block [] [] [.step 0x1842#32]).pending ≠ [] := by decide

theorem witness_OnlyTheDestinationRegisterChanges : ∃ s t : State, step s = .next t ∧ s.nextIsLifecycle = false ∧
    t.reg 1 ≠ s.reg 1 :=
  ⟨block [] [] [.step 0x1842#32], _, rfl, rfl, by decide⟩

theorem witness_OnlyStwChangesMemory : ∃ s t : State, s.mem.wf = true ∧ step s = .next t ∧ s.nextIsLifecycle = false ∧
    t.byte 0x100 ≠ s.byte 0x100 :=
  ⟨block [] [] [.step 0x8281#32], _, rfl, rfl, rfl, by decide⟩

theorem witness_OnlyLdwObservesMemory : ∃ s t : State, step s = .next t ∧ ∀ d a, s.nextInstr ≠ some (.ldw d a) :=
  ⟨block [] [] [.step 0x8281#32], _, rfl, fun d a h => by cases h⟩

theorem witness_ConfigurationIsFixedAtConstruction : ∃ s t : State, step s = .next t ∧
    ∀ ceiling size rest, s.pending ≠ .construct ceiling size :: rest :=
  ⟨block [] [] [.drop], _, rfl, fun _ _ _ h => by cases h⟩

theorem witness_EveryTransactionAnswers : ∃ s : State, s.phase = .constructed ∧
    ((Transaction.execute (.add 7#5 7#5)).Submittable s.config ∨ ∃ ceiling size,
      Transaction.execute (.add 7#5 7#5) = .construct ceiling size ∧ Config.LegalCeiling ceiling ∧
      Config.LegalMemSize size) ∧ s.pending = .execute (.add 7#5 7#5) :: [] :=
  ⟨{ block [] [] [.execute (.add 7#5 7#5)] with config := small }, rfl,
    .inl (by decide : (Instr.add 7#5 7#5).WellFormed small), rfl⟩

/-- Each of the three stops is reached. -/
theorem witness_TheMachineStopsExactlyHere : ∃ s t u : State, step s = .fault .noBlock ∧
    step t = .refused .illegalConfiguration ∧ step u = .refused .unvalidatedInstruction :=
  ⟨{ block [] [] [.drop] with phase := .dropped }, block [] [] [.construct 8 4096],
    { block [] [] [.execute (.add 8#5 0#5)] with config := small }, rfl, rfl, rfl⟩

theorem witness_CanonicalCeilingRefusesNoInstruction : State.reset.config.regCeiling = 31 := by decide

theorem witness_EveryProgramRunsToItsEnd : ∃ s : State, s.Operable ∧ s.pending ≠ [] ∧
    ∀ t ∈ s.pending, t.Submittable s.config :=
  ⟨block [] [] [.step 0x067F#32, .registerRead 40#32], block_operable_nil _ _, by decide, by
    intro t ht
    rcases List.mem_cons.1 ht with rfl | ht
    · trivial
    · rw [List.mem_singleton.1 ht]; trivial⟩

theorem witness_StepKeepsTheInvariant : ∃ s t : State, s.Inv ∧ step s = .next t ∧ t ≠ s :=
  ⟨block [] [(0x100, 0x55#8)] [.step 0x8281#32], _, (block_operable _ _ _ (by decide) (by decide)).1, rfl, by decide⟩

theorem witness_StepKeepsGranularity : ∃ s t : State, s.Inv ∧ s.Granular ∧ step s = .next t ∧ t ≠ s := by
  refine ⟨block [] [] [.step 0x1842#32], _, (block_operable_nil _ _).1, ⟨fun n => ?_, fun _ => rfl⟩, rfl, by decide⟩
  by_cases h : n < 32
  · revert n
    decide
  · simp [State.reg, block, seedRegs, h]

theorem witness_ReachableStatesAreGranular : ∃ s, Reachable s ∧ s.reg 1 = 0x40#32 :=
  ⟨_, .step _ _ (.constructed hwConfig [.step 0x1842#32] (by decide)) rfl, by decide⟩

theorem witness_CanonicalMemoriesAreEqualWhenTheyReadEqual : ∃ m m' : Memory, m.wf = true ∧ m'.wf = true ∧
    ∀ a, m.read a = m'.read a :=
  ⟨Memory.write [] 3 7#8, [(3, 7#8)], by decide, by decide, fun _ => rfl⟩

/-- The three writing forms: an ADD whose sum is exactly 0xFFFFFFFF, submitted as a word, an XOR, and an LDW of the last byte; the
readers are an ADD, an XOR and an STW. -/
theorem witness_NextTransactionSeesTheWrite : ∃ s : State, s.Operable ∧
    s.pending = .step 0x1042#32 :: .execute (.xor 3#5 1#5) :: [] ∧
    (Transaction.step 0x1042#32).Runs s.config (.add 1#5 2#5) ∧ (Instr.add 1#5 2#5).WellFormed s.config ∧
    s.Writes (.add 1#5 2#5) 0xFFFFFFFF#32 ∧ (Instr.xor 3#5 1#5).WellFormed s.config ∧
    (Transaction.execute (.xor 3#5 1#5)).Runs s.config (.xor 3#5 1#5) ∧
    s.Writes (.xor 1#5 2#5) 0xFFFFFFFF#32 ∧ s.Writes (.ldw 1#5 4#5) 0x80#32 :=
  ⟨block [(1, 0xFFFFFFF0#32), (2, 0xF#32), (4, 0xFFF#32)] [(0xFFF, 0x80#8)] [.step 0x1042#32, .execute (.xor 3#5 1#5)],
    block_operable _ _ _ (by decide) (by decide), rfl, .inr ⟨_, rfl, by decide⟩, by decide,
    show _ = _ by decide, by decide, .inl rfl, show _ = _ by decide, show _ ∧ _ ∧ _ by decide⟩

/-- A register read as reader. -/
theorem witness_NextTransactionSeesTheWrite_read : ∃ s : State, s.Operable ∧
    s.pending = .execute (.xor 31#5 1#5) :: .registerRead 31#32 :: [] ∧
    (Transaction.execute (.xor 31#5 1#5)).Runs s.config (.xor 31#5 1#5) ∧ (Instr.xor 31#5 1#5).WellFormed s.config ∧
    s.Writes (.xor 31#5 1#5) 0x1E0#32 ∧ (31#32).toNat = (31#5).toNat :=
  ⟨block [] [] [.execute (.xor 31#5 1#5), .registerRead 31#32], block_operable_nil _ _, rfl, .inl rfl, by decide,
    show _ = _ by decide, by decide⟩

/-- An STW to the last byte and an LDW by another register that holds the same address. -/
theorem witness_NextTransactionSeesTheWrite_memory : ∃ s : State, s.Operable ∧
    s.pending = .execute (.stw 1#5 2#5) :: .execute (.ldw 3#5 4#5) :: [] ∧
    (Instr.stw 1#5 2#5).WellFormed s.config ∧ (Instr.ldw 3#5 4#5).WellFormed s.config ∧
    (Transaction.execute (.stw 1#5 2#5)).Runs s.config (.stw 1#5 2#5) ∧
    (Transaction.execute (.ldw 3#5 4#5)).Runs s.config (.ldw 3#5 4#5) ∧ s.config.loadStoreEnabled = true ∧
    (s.reg 2).toNat < s.config.memSize ∧ s.reg 4 = s.reg 2 ∧ (s.reg 2).toNat = 0xFFF :=
  ⟨block [(2, 0xFFF#32), (4, 0xFFF#32)] [] [.execute (.stw 1#5 2#5), .execute (.ldw 3#5 4#5)], block_operable_nil _ _, rfl,
    by decide, by decide, .inl rfl, .inl rfl, by decide⟩

/-- A writer followed by an STW that reads the register written, as value and as address. -/
theorem witness_NextTransactionSeesTheWrite_store : ∃ s u : State, s.Operable ∧
    s.pending = .execute (.xor 1#5 2#5) :: .execute (.stw 1#5 1#5) :: [] ∧
    (Instr.xor 1#5 2#5).WellFormed s.config ∧ (Instr.stw 1#5 1#5).WellFormed s.config ∧ s.Writes (.xor 1#5 2#5) 0x30#32 ∧
    step s = .next u ∧ u.config.loadStoreEnabled = true ∧ (u.reg 1).toNat < u.config.memSize :=
  ⟨block [] [] [.execute (.xor 1#5 2#5), .execute (.stw 1#5 1#5)], _, block_operable_nil _ _, rfl, by decide, by decide,
    show _ = _ by decide, rfl, by decide, by decide⟩

/-- Two states that differ in the destination and in another register; at the last byte in bounds and at the first out of bounds. -/
theorem witness_LdwDependsOnItsAddressRegisterOnly : ∃ s s' t u : State, s.Operable ∧ s'.Operable ∧ s.reg 1 ≠ s'.reg 1 ∧
    s.mem = s'.mem ∧ s.config = s'.config ∧ s.reg 2 = s'.reg 2 ∧ s.reg 3 = s'.reg 3 ∧
    exec (.ldw 1#5 2#5) s = .next t ∧ t.result = some (.ok .unit) ∧ exec (.ldw 1#5 3#5) s = .next u ∧
    u.result = some (.err (.memoryOverflow 0x1000#32)) :=
  ⟨block [(2, 0xFFF#32), (3, 0x1000#32)] [] [], block [(1, 0x77#32), (2, 0xFFF#32), (3, 0x1000#32), (9, 0x5#32)] [] [], _, _,
    block_operable_nil _ _, block_operable_nil _ _, by decide, rfl, rfl, by decide, by decide, rfl, rfl, rfl, rfl⟩

end Sys2Proof.Tests
end

/-! # What every transaction of the host answers (spec/00_scope.md R20, R22, R26)

First what `decode` validates, then one equation for each way a step answers, and from them the statements. -/

namespace Sys2Proof

/-! ## The decoder validates its operands -/

@[simp] theorem mkInstr_op0 (op : OpCode) (a b : RegIdx) : (mkInstr op a b).op0 = a := by cases op <;> rfl

@[simp] theorem mkInstr_op1 (op : OpCode) (a b : RegIdx) : (mkInstr op a b).op1 = b := by cases op <;> rfl

/-- What `decode` produces is validated (R81), so `execute` gives it a meaning (R102). -/
theorem wellFormed_of_decode {c : Config} {w : Word} {i : Instr} (h : decode c w = .ok i) : i.WellFormed c := by
  unfold decode at h
  split at h
  · cases h
  · split_ifs at h with h0 h1
    cases h
    simpa [Instr.WellFormed, Config.RegInRange] using And.intro (Nat.le_of_not_lt h0) (Nat.le_of_not_lt h1)

end Sys2Proof

namespace Sys2Proof.Machine

/-! ## One equation for each way a step answers -/

section Step

variable {s : State} {rest : List Transaction}

/-- `construct` with legal arguments; the phase of the block it replaces plays no part (R190, R192). -/
theorem step_construct {ceiling size : Nat} (hc : Config.LegalCeiling ceiling) (hm : Config.LegalMemSize size)
    (hp : s.pending = .construct ceiling size :: rest) :
    step s = .next ((State.constructed (constructConfig s.config ceiling size)).withPending rest) := by
  rw [step_of_pending hp]
  exact if_pos ⟨hc, hm⟩

variable (h : s.phase = .constructed)
include h

/-- Taking a transaction off the queue leaves the block there to answer it. -/
theorem onBlock_withPending (body : Host.Outcome State Fault Refusal) : onBlock (s.withPending rest) body = body :=
  onBlock_constructed (s := s.withPending rest) body h

theorem step_decode_of_ok {w : Word} {i : Instr} (hp : s.pending = .decode w :: rest)
    (hd : decode s.config w = .ok i) :
    step s = .next ((s.withPending rest).answer (.ok (.instruction i))) := by
  rw [step_of_pending hp, transact, onBlock_withPending h, doDecode, State.withPending_config, hd]
  rfl

theorem step_decode_of_error {w : Word} {e : Error} (hp : s.pending = .decode w :: rest)
    (hd : decode s.config w = .error e) : step s = .next ((s.withPending rest).answer (.err e)) := by
  rw [step_of_pending hp, transact, onBlock_withPending h, doDecode, State.withPending_config, hd]
  rfl

/-- A word that fails decode is not executed (R105). -/
theorem step_word_of_error {w : Word} {e : Error} (hp : s.pending = .step w :: rest)
    (hd : decode s.config w = .error e) : step s = .next ((s.withPending rest).answer (.err e)) := by
  rw [step_of_pending hp, transact, onBlock_withPending h, doStep, State.withPending_config, hd]
  rfl

theorem step_registerRead {index : Word} (hp : s.pending = .registerRead index :: rest) :
    step s = .next ((s.withPending rest).answer
      (if index.toNat ≤ s.config.regCeiling then .ok (.word (s.reg index.toNat)) else .err .op0OutOfRange)) := by
  rw [step_of_pending hp, transact, onBlock_withPending h, doRegisterRead]
  by_cases hi : index.toNat ≤ s.config.regCeiling
  · simp [hi, respond_eq]
  · simp [hi, raise_eq]

end Step

/-! ## Completion with one result -/

/-- A transaction that only answers leaves the block as it was: the queue and the result are not part of it (R30). -/
theorem sameBlock_withPending_answer (s : State) (q : List Transaction) (r : Result) :
    SameBlock s ((s.withPending q).answer r) := ⟨rfl, rfl, rfl, rfl⟩

/-- An outcome of a transaction on a block s: a next state that holds a result, with the configuration, the lifecycle and the
queue of s (R17, R26). -/
def Completes (s : State) (o : Host.Outcome State Fault Refusal) : Prop :=
  ∃ u r, o = .next u ∧ u.result = some r ∧ SameHost s u

theorem completes_answer (s : State) (r : Result) : Completes s (.next (s.answer r)) :=
  ⟨_, r, rfl, rfl, rfl, rfl, rfl⟩

theorem ExecNext.completes {i : Instr} {s u : State} (h : ExecNext i s u) : Completes s (.next u) := by
  cases h with
  | raised e => exact completes_answer s _
  | wrote v _ => exact ⟨_, _, rfl, rfl, rfl, rfl, rfl⟩
  | stored _ _ => exact ⟨_, _, rfl, rfl, rfl, rfl, rfl⟩

/-- A validated instruction is never refused (R102). -/
theorem exec_completes {i : Instr} {s : State} (hw : i.WellFormed s.config) : Completes s (exec i s) := by
  obtain ⟨hn, _⟩ | ⟨_, u, hu, hx⟩ := exec_cases i s
  · exact absurd hw hn
  · rw [hu]
    exact hx.completes

/-- Each transaction of R28 either answers from the unchanged block or runs a validated instruction. -/
theorem step_completes_of_submittable {s : State} {t : Transaction} {rest : List Transaction}
    (h : s.phase = .constructed) (hp : s.pending = t :: rest) (ht : t.Submittable s.config) :
    Completes (s.withPending rest) (step s) := by
  have answered : ∀ r, step s = .next ((s.withPending rest).answer r) → Completes (s.withPending rest) (step s) :=
    fun r hr => hr ▸ completes_answer _ r
  have executed : ∀ i, t.Runs s.config i → i.WellFormed s.config → Completes (s.withPending rest) (step s) :=
    fun i hr hw => step_of_runs h hp hr ▸ exec_completes hw
  cases t with
  | construct ceiling size => exact ht.elim
  | decode w =>
    cases hd : decode s.config w with
    | ok i => exact answered _ (step_decode_of_ok h hp hd)
    | error e => exact answered _ (step_decode_of_error h hp hd)
  | execute i => exact executed i (.inl rfl) ht
  | registerRead index => exact answered _ (step_registerRead h hp)
  | step w =>
    cases hd : decode s.config w with
    | ok i => exact executed i (.inr ⟨w, rfl, hd⟩) (wellFormed_of_decode hd)
    | error e => exact answered _ (step_word_of_error h hp hd)
  | drop => exact ht.elim

/-! ## The statements -/

/-- Settles O43: the transactions of R28 by `step_completes_of_submittable`, a legal `construct` by its own equation. -/
theorem everyTransactionAnswers : Obligations.EveryTransactionAnswers := by
  intro s t rest h hp ht
  obtain hsub | ⟨ceiling, size, rfl, hc, hm⟩ := ht
  · obtain ⟨u, r, hu, hr, hconfig, hphase, hpending⟩ := step_completes_of_submittable h hp hsub
    exact ⟨u, r, hu, hr, hpending, hphase.trans h, fun _ => hconfig⟩
  · exact ⟨_, _, step_construct hc hm hp, rfl, rfl, rfl, False.elim⟩

/-- Settles O17. -/
theorem registerReadAnswers : Obligations.RegisterReadAnswers := by
  intro s index rest h hp
  exact ⟨_, step_registerRead h hp, sameBlock_withPending_answer .., rfl, rfl⟩

/-- Settles O18, by the two outcomes of the decoder. -/
theorem decodeTransactionAnswers : Obligations.DecodeTransactionAnswers := by
  intro s w rest h hp
  cases hd : decode s.config w with
  | ok i =>
    refine ⟨_, step_decode_of_ok h hp hd, sameBlock_withPending_answer .., rfl, fun j hj => ?_, fun e he => ?_⟩
    · cases hj; rfl
    · cases he
  | error e =>
    refine ⟨_, step_decode_of_error h hp hd, sameBlock_withPending_answer .., rfl, fun i hi => ?_, fun e' he => ?_⟩
    · cases hi
    · cases he; rfl

end Sys2Proof.Machine

/-! # The bounded memory (spec/20_memory.md)

The primitives first, each as its bound and its answer, then what a step leaves of the configuration. -/

namespace Sys2Proof.Machine

/-! ## The primitives by their bound -/

section Primitives

variable {s : State} {addr : Word}

theorem memRead_of_lt (h : addr.toNat < s.config.memSize) : memRead s addr = .ok (s.byte addr.toNat) := by
  obtain ⟨_, hr⟩ | ⟨hge, _⟩ := memRead_cases s addr
  · exact hr
  · exact absurd h hge.not_gt

theorem memRead_of_ge (h : s.config.memSize ≤ addr.toNat) : memRead s addr = .error (.memoryOverflow addr) := by
  obtain ⟨hlt, _⟩ | ⟨_, hr⟩ := memRead_cases s addr
  · exact absurd hlt h.not_gt
  · exact hr

theorem memWrite_of_lt (v : Byte) (h : addr.toNat < s.config.memSize) :
    memWrite s addr v = .ok (s.withMem (s.mem.write addr.toNat v)) := by
  obtain ⟨_, hw⟩ | ⟨hge, _⟩ := memWrite_cases s addr v
  · exact hw
  · exact absurd h hge.not_gt

theorem memWrite_of_ge (v : Byte) (h : s.config.memSize ≤ addr.toNat) :
    memWrite s addr v = .error (.memoryOverflow addr) := by
  obtain ⟨hlt, _⟩ | ⟨_, hw⟩ := memWrite_cases s addr v
  · exact absurd hlt h.not_gt
  · exact hw

end Primitives

/-! ## What a write leaves alone -/

theorem sameBytesExcept_withMem_write (s : State) (a : Nat) (v : Byte) :
    SameBytesExcept a s (s.withMem (s.mem.write a v)) :=
  fun _ hb => Memory.read_write_other v hb s.mem

theorem sameRegs_withMem (s : State) (m : Memory) : SameRegs s (s.withMem m) := ⟨rfl, fun _ => rfl⟩

theorem sameHost_withMem (s : State) (m : Memory) : SameHost s (s.withMem m) := ⟨rfl, rfl, rfl⟩

/-! ## What a step leaves of the configuration -/

/-- No instruction has a way to the parameters (R13). -/
theorem ExecNext.config_eq {i : Instr} {s t : State} (h : ExecNext i s t) : t.config = s.config := by
  obtain ⟨_, _, ⟨⟩, _, hconfig, _⟩ := h.completes
  exact hconfig

/-- `construct` alone sets the parameters (R13, R18): any other step keeps them. -/
theorem StepNext.config_eq {s t : State} (h : StepNext s t)
    (hp : ∀ ceiling size rest, s.pending ≠ .construct ceiling size :: rest) : t.config = s.config := by
  cases h with
  | idled _ => rfl
  | constructed ceiling size rest hc _ _ => exact absurd hc (hp ceiling size rest)
  | dropped rest _ _ => rfl
  | answered t rest r _ _ _ => rfl
  | executed t rest i u _ _ _ he => exact (exec_next he).config_eq

/-! ## The statements -/

/-- Settles O26: the write is one cell of the canonical memory, which reads back and hides no other. -/
theorem memWriteChangesOneByte : Obligations.MemWriteChangesOneByte := by
  intro s addr v hm
  refine ⟨fun h => ?_, fun h => memWrite_of_ge v (Nat.le_of_not_lt h)⟩
  have hself : (s.mem.write addr.toNat v).read addr.toNat = v := Memory.read_write_self _ v hm
  exact ⟨_, memWrite_of_lt v h, hself, sameBytesExcept_withMem_write s _ v, sameRegs_withMem s _, sameHost_withMem s _⟩

/-- Settles O42, by the cases of a step. -/
theorem configurationIsFixedAtConstruction : Obligations.ConfigurationIsFixedAtConstruction :=
  fun _ _ h hp => (step_next h).config_eq hp

/-- Settles O25. -/
theorem memReadIsBounded : Obligations.MemReadIsBounded :=
  fun _ _ => ⟨memRead_of_lt, fun h => memRead_of_ge (Nat.le_of_not_lt h)⟩

/-- Settles O27: MEM_SIZE is the first address of the failing case, MEM_SIZE - 1 the last of the other. -/
theorem memoryBoundIsStrict : Obligations.MemoryBoundIsStrict := by
  refine fun s addr v => ⟨fun h => ?_, fun h => ?_⟩
  · exact ⟨memRead_of_ge h.ge, memWrite_of_ge v h.ge⟩
  · have hlt : addr.toNat < s.config.memSize := by omega
    exact ⟨⟨_, memRead_of_lt hlt⟩, ⟨_, memWrite_of_lt v hlt⟩⟩

end Sys2Proof.Machine

/-! # The decoder's fields, checks and totality (spec/30_encoding.md R71, R74, R77, R80)

First the three fields as R71 computes them, then one equation for each outcome of `decode`, and from them the statements. -/

namespace Sys2Proof

/-! ## The fields of a word (R71) -/

@[simp] theorem tagField_toNat (w : Word) : (tagField w).toNat = w.toNat % 64 := by
  simp [tagField]

@[simp] theorem op0Field_toNat (w : Word) : (op0Field w).toNat = w.toNat / 64 % 32 := by
  simp [op0Field, Nat.shiftRight_eq_div_pow]

@[simp] theorem op1Field_toNat (w : Word) : (op1Field w).toNat = w.toNat / 2048 % 32 := by
  simp [op1Field, Nat.shiftRight_eq_div_pow]

@[simp] theorem mkInstr_opcode (op : OpCode) (a b : RegIdx) : (mkInstr op a b).opcode = op := by cases op <;> rfl

/-! ## One equation for each outcome of `decode` (R74) -/

section Decode

variable {c : Config} {w : Word} {op : OpCode}

theorem decode_of_unmapped (h : c.tags.lookup (tagField w) = none) :
    decode c w = .error (.invalidOpCode (tagField w)) := by
  simp only [decode, h]

theorem decode_of_op0_gt (h : c.tags.lookup (tagField w) = some op) (h0 : c.regCeiling < (op0Field w).toNat) :
    decode c w = .error .op0OutOfRange := by
  simp only [decode, h]
  exact if_pos h0

theorem decode_of_op1_gt (h : c.tags.lookup (tagField w) = some op) (h0 : ¬ c.regCeiling < (op0Field w).toNat)
    (h1 : c.regCeiling < (op1Field w).toNat) : decode c w = .error .op1OutOfRange := by
  simp only [decode, h]
  exact (if_neg h0).trans (if_pos h1)

theorem decode_of_inRange (h : c.tags.lookup (tagField w) = some op) (h0 : ¬ c.regCeiling < (op0Field w).toNat)
    (h1 : ¬ c.regCeiling < (op1Field w).toNat) : decode c w = .ok (mkInstr op (op0Field w) (op1Field w)) := by
  simp only [decode, h]
  exact (if_neg h0).trans (if_neg h1)

end Decode

/-- Words with the same three fields decode alike: `decode` reads nothing else of a word. -/
theorem decode_congr {c : Config} {v w : Word} (ht : tagField v = tagField w) (h0 : op0Field v = op0Field w)
    (h1 : op1Field v = op1Field w) : decode c v = decode c w := by
  unfold decode
  rw [ht, h0, h1]

/-! ## The statements -/

/-- Settles O1: the fields are those of R71, and each branch is one outcome of `decode`. -/
theorem decodeFollowsTheOrderOfChecks : Obligations.DecodeFollowsTheOrderOfChecks := by
  intro c w tag a b ht ha hb
  obtain rfl : tag = tagField w := BitVec.eq_of_toNat_eq (ht.trans (tagField_toNat w).symm)
  obtain rfl : a = op0Field w := BitVec.eq_of_toNat_eq (ha.trans (op0Field_toNat w).symm)
  obtain rfl : b = op1Field w := BitVec.eq_of_toNat_eq (hb.trans (op1Field_toNat w).symm)
  split
  case h_1 hop => exact decode_of_unmapped hop
  case h_2 op hop =>
    split_ifs with h0 h1
    · exact decode_of_op0_gt hop h0
    · exact decode_of_op1_gt hop h0 h1
    · exact ⟨_, decode_of_inRange hop h0 h1, mkInstr_opcode .., mkInstr_op0 .., mkInstr_op1 ..⟩

/-- Settles O2: each of the three fields is a function of the low 16 bits. -/
theorem decodeIgnoresUpperHalf : Obligations.DecodeIgnoresUpperHalf := by
  intro c v w h
  have ht : tagField v = tagField w := BitVec.eq_of_toNat_eq (by simp only [tagField_toNat]; omega)
  have h0 : op0Field v = op0Field w := BitVec.eq_of_toNat_eq (by simp only [op0Field_toNat]; omega)
  have h1 : op1Field v = op1Field w := BitVec.eq_of_toNat_eq (by simp only [op1Field_toNat]; omega)
  exact decode_congr ht h0 h1

/-- Settles O3: the outcomes of `decode`, where an instruction it gives is validated. -/
theorem decodeIsTotalAndValidated : Obligations.DecodeIsTotalAndValidated := by
  intro c w
  cases hop : c.tags.lookup (tagField w) with
  | none => exact .inr (.inl (decode_of_unmapped hop))
  | some op =>
    by_cases h0 : c.regCeiling < (op0Field w).toNat
    · exact .inr (.inr (.inl (decode_of_op0_gt hop h0)))
    by_cases h1 : c.regCeiling < (op1Field w).toNat
    · exact .inr (.inr (.inr (decode_of_op1_gt hop h0 h1)))
    · have hd := decode_of_inRange hop h0 h1
      exact .inl ⟨_, hd, wellFormed_of_decode hd⟩

end Sys2Proof

/-! # What a dispatched instruction changes (spec/40_dispatch.md R103, R105)

The frame of a register write and of an answer first, then the statements. -/

namespace Sys2Proof.Machine

/-! ## What a register write leaves alone -/

theorem sameRegsExcept_writeReg (s : State) (n : Nat) (v : Word) : SameRegsExcept n s (s.writeReg n v) :=
  ⟨by simp, fun k hk => s.writeReg_reg_other n k v hk⟩

theorem sameBytes_writeReg (s : State) (n : Nat) (v : Word) : SameBytes s (s.writeReg n v) :=
  s.writeReg_byte n v

/-! ## An answer is no part of the registers or of memory (R30) -/

section Answer

variable {s t : State} (r : Result)

theorem sameRegs_answer : SameRegs s (s.answer r) := ⟨rfl, s.answer_reg r⟩

theorem sameBytes_answer : SameBytes s (s.answer r) := s.answer_byte r

theorem SameRegs.answer (h : SameRegs s t) : SameRegs s (t.answer r) := h

theorem SameRegsExcept.answer {n : Nat} (h : SameRegsExcept n s t) : SameRegsExcept n s (t.answer r) := h

theorem SameBytes.answer (h : SameBytes s t) : SameBytes s (t.answer r) := h

theorem SameBytesExcept.answer {a : Nat} (h : SameBytesExcept a s t) : SameBytesExcept a s (t.answer r) := h

end Answer

/-! ## The statements -/

/-- Settles O36: the three next states of `execute`, each with its frame. -/
theorem executeIsAllOrNothing : Obligations.ExecuteIsAllOrNothing := by
  intro s t i h
  cases exec_next h with
  | raised e => exact .inr (.inr ⟨e, rfl, sameRegs_answer _, sameBytes_answer _⟩)
  | wrote v hop =>
    exact .inl ⟨rfl, hop, (sameRegsExcept_writeReg s _ v).answer _, (sameBytes_writeReg s _ v).answer _⟩
  | stored hop _ =>
    exact .inr (.inl ⟨rfl, hop, (sameRegs_withMem s _).answer _, (sameBytesExcept_withMem_write s _ _).answer _⟩)

/-- Settles O14: a word that decodes is run as its instruction, and of any other the step answers the error alone. -/
theorem stepRunsTheDecodedInstruction : Obligations.StepRunsTheDecodedInstruction := by
  intro s w rest h hp
  refine ⟨fun i hd => step_of_runs h hp (.inr ⟨w, rfl, hd⟩), fun e hd => ?_⟩
  exact ⟨_, step_word_of_error h hp hd, sameBlock_withPending_answer .., rfl, rfl⟩

end Sys2Proof.Machine

/-! # ADD and XOR (spec/41_alu.md R120 to R126)

First what decodes to a validated instruction, then a completed instruction with its result and frame, and from them the
statements. -/

namespace Sys2Proof

/-! ## Decoding from the three fields -/

/-- R75's constraints make the opcode map read back every tag that it gives out. -/
theorem OpcodeTags.lookup_tagOf {m : OpcodeTags} (h : m.WellFormed) (op : OpCode) : m.lookup (m.tagOf op) = some op := by
  obtain ⟨_, hdistinct, _⟩ := h
  simp only [List.nodup_cons, List.mem_cons, not_or] at hdistinct
  cases op <;> simp [OpcodeTags.lookup, OpcodeTags.tagOf, hdistinct, eq_comm]

/-- A word with an opcode's tag and two operands within the ceiling decodes to that opcode on those operands (R71, R74). -/
theorem decode_of_fields {c : Config} {w : Word} {op : OpCode} {a b : RegIdx} (hc : c.tags.WellFormed)
    (ha : c.RegInRange a) (hb : c.RegInRange b) (hop : w.toNat % 64 = (c.tags.tagOf op).toNat)
    (h0 : w.toNat / 64 % 32 = a.toNat) (h1 : w.toNat / 2048 % 32 = b.toNat) : decode c w = .ok (mkInstr op a b) := by
  have htag : tagField w = c.tags.tagOf op := BitVec.eq_of_toNat_eq ((tagField_toNat w).trans hop)
  obtain rfl : op0Field w = a := BitVec.eq_of_toNat_eq ((op0Field_toNat w).trans h0)
  obtain rfl : op1Field w = b := BitVec.eq_of_toNat_eq ((op1Field_toNat w).trans h1)
  exact decode_of_inRange (htag ▸ OpcodeTags.lookup_tagOf hc op) (Nat.not_lt.2 ha) (Nat.not_lt.2 hb)

end Sys2Proof

namespace Sys2Proof.Machine

/-! ## A completed instruction with its result and frame -/

/-- An operable block holds every register within its ceiling (R31). -/
theorem State.Operable.lt_length {s : State} {r : RegIdx} (ho : s.Operable) (hr : s.config.RegInRange r) :
    r.toNat < s.x.length := by
  obtain ⟨hinv, hphase⟩ := ho
  rw [hinv.file_size hphase]
  exact Nat.lt_succ_of_le hr

theorem sameHost_writeReg (s : State) (n : Nat) (v : Word) : SameHost s (s.writeReg n v) := ⟨rfl, rfl, rfl⟩

theorem SameHost.answer {s t : State} (r : Result) (h : SameHost s t) : SameHost s (t.answer r) := h

/-- The value an instruction writes stands in its destination register afterwards, and nothing else has changed (R103). -/
theorem exec_result_of_writes {i : Instr} {s : State} {v : Word} (ho : s.Operable) (h : s.Writes i v)
    (hw : i.WellFormed s.config) :
    ∃ t, exec i s = .next t ∧ t.reg i.op0.toNat = v ∧ SameRegsExcept i.op0.toNat s t ∧ SameBytes s t ∧ SameHost s t ∧
      t.result = some (.ok .unit) := by
  have hreg : (s.writeReg i.op0.toNat v).reg i.op0.toNat = v := s.writeReg_reg_self _ v (ho.lt_length hw.1)
  exact ⟨_, exec_of_writes hw h, hreg, (sameRegsExcept_writeReg s _ v).answer _, (sameBytes_writeReg s _ v).answer _,
    (sameHost_writeReg s _ v).answer _, rfl⟩

/-- A mathematical sum that fits in 32 bits is the one ADD writes (R120, R121). -/
theorem writes_add {s : State} {d r : RegIdx} (h : (s.reg d.toNat).toNat + (s.reg r.toNat).toNat < 2 ^ 32) :
    s.Writes (.add d r) (s.reg d.toNat + s.reg r.toNat) :=
  BitVec.toNat_add_of_lt h

/-! ## The statements -/

/-- Settles O21: `decode_of_fields` at the fixed tag of ADD, then the two outcomes of the overflow check. -/
theorem addIsCheckedUnsignedAddition : Obligations.AddIsCheckedUnsignedAddition := by
  intro s d r ho hd hr
  refine ⟨fun w hop h0 h1 => ?_, fun h => ?_, fun h => ?_⟩
  · obtain ⟨_, _, htags⟩ := ho.1.config_legal
    have htag : s.config.tags.tagOf .add = 0x02#6 := htags.1
    exact decode_of_fields (op := .add) htags hd hr (by simpa [htag] using hop) h0 h1
  · have hsum := writes_add (Nat.lt_succ_of_le h)
    obtain ⟨t, ht, hreg, hframe⟩ := exec_result_of_writes ho hsum ⟨hd, hr⟩
    exact ⟨t, ht, (congrArg BitVec.toNat hreg).trans hsum, hframe⟩
  · exact ⟨_, execAdd_overflows hd hr h, sameRegs_answer _, sameBytes_answer _, ⟨rfl, rfl, rfl⟩, rfl⟩

/-- Settles O22: the sum and the verdict are symmetric in the operands, the destination and the payload are not. -/
theorem addCommutesInResultOnly : Obligations.AddCommutesInResultOnly := by
  intro s a b ho ha hb
  rcases Nat.lt_or_ge ((s.reg a.toNat).toNat + (s.reg b.toNat).toNat) (2 ^ 32) with h | h
  · obtain ⟨t, ht, htreg, htframe, _⟩ := exec_result_of_writes ho (writes_add h) ⟨ha, hb⟩
    obtain ⟨u, hu, hureg, huframe, _⟩ := exec_result_of_writes ho (writes_add (Nat.add_comm .. ▸ h)) ⟨hb, ha⟩
    have hsame : u.reg b.toNat = t.reg a.toNat := hureg.trans ((BitVec.add_comm ..).trans htreg.symm)
    exact ⟨t, u, ht, hu, fun _ => ⟨htreg, hsame, htframe, huframe⟩, fun hge => absurd h hge.not_gt⟩
  · refine ⟨_, _, execAdd_overflows ha hb h, execAdd_overflows hb ha (Nat.add_comm .. ▸ h), fun hlt => ?_, fun _ => ?_⟩
    · exact absurd hlt h.not_gt
    · exact ⟨sameRegs_answer _, sameRegs_answer _, rfl, rfl⟩

/-- Settles O23: bit k of the value written is the exclusive-or of the operands' bits k. -/
theorem xorWritesBitwiseDifference : Obligations.XorWritesBitwiseDifference := by
  intro s d r ho hd hr
  obtain ⟨t, ht, hreg, hframe⟩ := exec_result_of_writes (i := .xor d r) ho rfl ⟨hd, hr⟩
  refine ⟨t, ht, fun k _ => ?_, hframe⟩
  have hbit : (t.reg d.toNat).getLsbD k = ((s.reg d.toNat).getLsbD k ^^ (s.reg r.toNat).getLsbD k) :=
    (congrArg (·.getLsbD k) hreg).trans BitVec.getLsbD_xor
  rw [hbit, bne_iff_ne]

end Sys2Proof.Machine

/-! # LDW and STW (spec/42_load_store.md R140 to R148)

What an instruction in bounds loads and stores, each with its frame. -/

namespace Sys2Proof.Machine

/-- Zero extension has no bit set above the byte (R142). -/
theorem zext32_getLsbD_of_ge (b : Byte) {k : Nat} (hk : 8 ≤ k) : (zext32 b).getLsbD k = false :=
  (zext32_getLsbD b k).trans (BitVec.getLsbD_of_ge b k hk)

/-- An LDW in bounds writes the zero-extended byte at its address (R140, R142). -/
theorem writes_ldw {s : State} (d : RegIdx) {a : RegIdx} (hls : s.config.loadStoreEnabled = true)
    (hb : (s.reg a.toNat).toNat < s.config.memSize) :
    s.Writes (.ldw d a) (zext32 (s.byte (s.reg a.toNat).toNat)) :=
  ⟨hls, hb, zext32_toNat _⟩

/-! ## The statements -/

/-- Settles O28: the value written is a zero extension, whose number and upper bits are those of the byte. -/
theorem ldwLoadsZeroExtendedByte : Obligations.LdwLoadsZeroExtendedByte := by
  intro s d a ho hd ha hls hb
  obtain ⟨t, ht, hreg, hframe⟩ := exec_result_of_writes ho (writes_ldw d hls hb) ⟨hd, ha⟩
  have hload : t.reg d.toNat = zext32 (s.byte (s.reg a.toNat).toNat) := hreg
  refine ⟨t, ht, ?_, fun k hk => ?_, hframe⟩
  · rw [hload, zext32_toNat]
  · rw [hload, zext32_getLsbD_of_ge _ hk]

/-- Settles O29: the one cell written reads back as the low byte, and the answer touches neither memory nor registers. -/
theorem stwStoresLowByte : Obligations.StwStoresLowByte := by
  intro s v a ho hv ha hls hb
  have hself : (s.mem.write (s.reg a.toNat).toNat (lowByte (s.reg v.toNat))).read (s.reg a.toNat).toNat =
      lowByte (s.reg v.toNat) := Memory.read_write_self _ _ ho.1.mem_canonical
  exact ⟨_, execStw_in_bounds hv ha hls hb, (congrArg BitVec.toNat hself).trans (lowByte_toNat _),
    (sameBytesExcept_withMem_write s _ _).answer _, (sameRegs_withMem s _).answer _, (sameHost_withMem s _).answer _, rfl⟩

end Sys2Proof.Machine

/-! # The errors of each instruction (spec/60_exceptions.md R169)

One equation for each check of `execute` that fails, and from them the errors that an instruction can answer. -/

namespace Sys2Proof.Machine

/-! ## The checks that fail -/

section Checks

variable {i : Instr} {s : State}

/-- Only a validated instruction has a next state (R102). -/
theorem wellFormed_of_exec_next {t : State} (h : exec i s = .next t) : i.WellFormed s.config := by
  obtain ⟨_, hr⟩ | ⟨hw, _⟩ := exec_cases i s
  · exact nomatch hr.symm.trans h
  · exact hw

/-- An opcode that the build lacks is reported in place of the instruction's body (R101). -/
theorem dispatched_of_unimplemented {op : OpCode} {a b : RegIdx} (body : Host.Outcome State Fault Refusal)
    (ha : s.config.RegInRange a) (hb : s.config.RegInRange b) (hi : implemented s.config op = false) :
    dispatched op a b s body = .next (s.answer (.err (.unsupportedOpCode op))) := by
  unfold dispatched
  rw [if_neg (not_not_intro ⟨ha, hb⟩), if_neg (Bool.eq_false_iff.1 hi), raise_eq]

/-- LDW and STW are the group that a build can lack (R101, D6). -/
theorem implemented_loadStore {c : Config} {op : OpCode} (hop : op = .ldw ∨ op = .stw) :
    implemented c op = c.loadStoreEnabled := by
  rcases hop with rfl | rfl <;> rfl

/-- Every opcode passes that check before its body, so no register is read (R100, R101). -/
theorem exec_of_unimplemented (hw : i.WellFormed s.config) (hi : implemented s.config i.opcode = false) :
    exec i s = .next (s.answer (.err (.unsupportedOpCode i.opcode))) := by
  obtain ⟨h0, h1⟩ := hw
  cases i <;> exact dispatched_of_unimplemented _ h0 h1 hi

/-- LDW outside memory (R54, R140). -/
theorem execLdw_out_of_bounds {d a : RegIdx} (hd : s.config.RegInRange d) (ha : s.config.RegInRange a)
    (hls : s.config.loadStoreEnabled = true) (hb : s.config.memSize ≤ (s.reg a.toNat).toNat) :
    exec (.ldw d a) s = .next (s.answer (.err (.memoryOverflow (s.reg a.toNat)))) := by
  have hread : memRead s (effectiveAddress s a) = .error (.memoryOverflow (s.reg a.toNat)) := memRead_of_ge hb
  change execLdw d a s = _
  unfold execLdw
  rw [dispatched_of_valid (op := .ldw) _ hd ha hls, hread]
  rfl

/-- STW outside memory (R55, R145). -/
theorem execStw_out_of_bounds {v a : RegIdx} (hv : s.config.RegInRange v) (ha : s.config.RegInRange a)
    (hls : s.config.loadStoreEnabled = true) (hb : s.config.memSize ≤ (s.reg a.toNat).toNat) :
    exec (.stw v a) s = .next (s.answer (.err (.memoryOverflow (s.reg a.toNat)))) := by
  have hwrite : memWrite s (effectiveAddress s a) (lowByte (regOperand s v)) =
      .error (.memoryOverflow (s.reg a.toNat)) := memWrite_of_ge _ hb
  change execStw v a s = _
  unfold execStw
  rw [dispatched_of_valid (op := .stw) _ hv ha hls, hwrite]
  rfl

end Checks

/-! ## The error that was answered -/

section Answered

variable {i : Instr} {s t u : State} {e : Error}

/-- What `execute` answers is the result in its one next state. -/
theorem exec_answer_unique {r : Result} (hx : exec i s = .next (u.answer r)) (h : exec i s = .next t)
    (he : t.result = some (.err e)) : r = .err e := by
  obtain rfl : u.answer r = t := Host.Outcome.next.inj (hx.symm.trans h)
  exact Option.some.inj he

theorem error_unique {e' : Error} (hx : exec i s = .next (u.answer (.err e'))) (h : exec i s = .next t)
    (he : t.result = some (.err e)) : e = e' :=
  (Result.err.inj (exec_answer_unique hx h he)).symm

theorem no_error_of_completes (hx : exec i s = .next (u.answer (.ok .unit))) (h : exec i s = .next t)
    (he : t.result = some (.err e)) : False :=
  nomatch exec_answer_unique hx h he

/-- A load or store in bounds completes (R140, R145). -/
theorem exec_loadStore_in_bounds (hop : i.opcode = .ldw ∨ i.opcode = .stw) (hw : i.WellFormed s.config)
    (hls : s.config.loadStoreEnabled = true) (hb : (s.reg i.op1.toNat).toNat < s.config.memSize) :
    ∃ u : State, exec i s = .next (u.answer (.ok .unit)) := by
  obtain ⟨h0, h1⟩ := hw
  cases i with
  | ldw d a => exact ⟨_, execLdw_in_bounds h0 h1 hls hb⟩
  | stw v a => exact ⟨_, execStw_in_bounds h0 h1 hls hb⟩
  | _ => simp [Instr.opcode] at hop

/-- A load or store out of bounds reports its address (R54, R55). -/
theorem exec_loadStore_out_of_bounds (hop : i.opcode = .ldw ∨ i.opcode = .stw) (hw : i.WellFormed s.config)
    (hls : s.config.loadStoreEnabled = true) (hb : s.config.memSize ≤ (s.reg i.op1.toNat).toNat) :
    exec i s = .next (s.answer (.err (.memoryOverflow (s.reg i.op1.toNat)))) := by
  obtain ⟨h0, h1⟩ := hw
  cases i with
  | ldw d a => exact execLdw_out_of_bounds h0 h1 hls hb
  | stw v a => exact execStw_out_of_bounds h0 h1 hls hb
  | _ => simp [Instr.opcode] at hop

/-- LDW and STW fail alike: by the bound on the address where the build has them, and by their opcode where it lacks them. -/
theorem loadStore_error (hop : i.opcode = .ldw ∨ i.opcode = .stw) (h : exec i s = .next t)
    (he : t.result = some (.err e)) :
    if s.config.loadStoreEnabled then ∃ a, e = .memoryOverflow a else e = .unsupportedOpCode i.opcode := by
  have hw := wellFormed_of_exec_next h
  split_ifs with hls
  · rcases Nat.lt_or_ge (s.reg i.op1.toNat).toNat s.config.memSize with hb | hb
    · obtain ⟨u, hu⟩ := exec_loadStore_in_bounds hop hw hls hb
      exact (no_error_of_completes hu h he).elim
    · exact ⟨_, error_unique (exec_loadStore_out_of_bounds hop hw hls hb) h he⟩
  · have hi := (implemented_loadStore hop).trans (Bool.eq_false_iff.2 hls)
    exact error_unique (exec_of_unimplemented hw hi) h he

/-- ADD fails by its sum alone, and the error holds the two operands (R120, R122). -/
theorem add_error {d r : RegIdx} (h : exec (.add d r) s = .next t) (he : t.result = some (.err e)) :
    e = .additionOverflow (s.reg d.toNat) (s.reg r.toNat) := by
  obtain ⟨hd, hr⟩ := wellFormed_of_exec_next h
  rcases Nat.lt_or_ge 0xFFFFFFFF ((s.reg d.toNat).toNat + (s.reg r.toNat).toNat) with ho | hf
  · exact error_unique (execAdd_overflows hd hr ho) h he
  · exact (no_error_of_completes (execAdd_fits hd hr hf) h he).elim

/-- XOR has no check to fail (R125). -/
theorem xor_no_error {d r : RegIdx} (h : exec (.xor d r) s = .next t) (he : t.result = some (.err e)) : False := by
  obtain ⟨hd, hr⟩ := wellFormed_of_exec_next h
  exact no_error_of_completes (execXor_eq hd hr) h he

end Answered

/-! ## The statement -/

/-- Settles O35: the row of R169's table for each opcode. -/
theorem errorsOfEachInstruction : Obligations.ErrorsOfEachInstruction := by
  intro s t i e h he
  cases i with
  | add d r => exact ⟨_, _, add_error h he⟩
  | xor d r => exact xor_no_error h he
  | ldw d a => exact loadStore_error (.inl rfl) h he
  | stw v a => exact loadStore_error (.inr rfl) h he

end Sys2Proof.Machine

/-! # Construction keeps nothing of an earlier block (spec/70_reset_and_hazards.md R193)

A state enters the answer of `construct` only through the two parameters the build fixes, since the other two are the
transaction's own arguments. -/

namespace Sys2Proof.Machine

/-- `construct` with an illegal ceiling or size is refused, whatever the state holds (R6, R8). -/
theorem step_construct_of_illegal {s : State} {rest : List Transaction} {ceiling size : Nat}
    (hl : ¬(Config.LegalCeiling ceiling ∧ Config.LegalMemSize size)) (hp : s.pending = .construct ceiling size :: rest) :
    step s = .refused .illegalConfiguration := by
  rw [step_of_pending hp]
  exact if_neg hl

/-- The configuration constructed depends on the build's two parameters and on the arguments alone (R18, R190). -/
theorem constructConfig_congr {c c' : Config} (ceiling size : Nat) (hls : c.loadStoreEnabled = c'.loadStoreEnabled)
    (ht : c.tags = c'.tags) : constructConfig c ceiling size = constructConfig c' ceiling size := by
  simp only [constructConfig, hls, ht]

/-! ## The statement -/

/-- Settles O10: legal arguments give both states the reset state of one configuration, and illegal ones the same refusal. -/
theorem constructForgetsEverything : Obligations.ConstructForgetsEverything := by
  intro s s' ceiling size rest hls ht hp hp'
  by_cases hl : Config.LegalCeiling ceiling ∧ Config.LegalMemSize size
  · obtain ⟨hc, hm⟩ := hl
    rw [step_construct hc hm hp, step_construct hc hm hp', constructConfig_congr ceiling size hls ht]
  · rw [step_construct_of_illegal hl hp, step_construct_of_illegal hl hp']

end Sys2Proof.Machine

/-! # The effect of an instruction as data (spec/40_dispatch.md R100 to R103)

What a validated instruction does is settled by the configuration, its two operand values and the one byte at its address.
`Instr.effect` says so as a function of these alone, and `exec_eq_effect` ties it to `exec`. Two states that agree on them are
then told apart by no instruction. -/

namespace Sys2Proof.Machine

/-- What an instruction does to the block: one error, one register written or one byte stored (R103). -/
inductive Effect where
  | raised (e : Error)
  | wrote (v : Word)
  | stored (a : Nat) (b : Byte)

/-- The answer of the transaction. -/
def Effect.result : Effect → Result
  | .raised e => .err e
  | .wrote _ => .ok .unit
  | .stored _ _ => .ok .unit

@[simp] theorem Effect.result_raised (e : Error) : (Effect.raised e).result = .err e := rfl
@[simp] theorem Effect.result_wrote (v : Word) : (Effect.wrote v).result = .ok .unit := rfl
@[simp] theorem Effect.result_stored (a : Nat) (b : Byte) : (Effect.stored a b).result = .ok .unit := rfl

/-- The registers afterwards, d being the destination. -/
def Effect.onRegs (d : Nat) (x : List Word) : Effect → List Word
  | .wrote v => x.set d v
  | _ => x

/-- The memory afterwards. -/
def Effect.onMem (m : Memory) : Effect → Memory
  | .stored a b => m.write a b
  | _ => m

/-- The state afterwards. -/
def Effect.apply (d : Nat) (s : State) (f : Effect) : State :=
  { s with x := f.onRegs d s.x, mem := f.onMem s.mem, result := some f.result }

@[simp] theorem Effect.apply_mem (d : Nat) (s : State) (f : Effect) : (f.apply d s).mem = f.onMem s.mem := rfl
@[simp] theorem Effect.apply_result (d : Nat) (s : State) (f : Effect) : (f.apply d s).result = some f.result := rfl

/-- The effect of an instruction on the operand values x and y, b being the byte at address y. -/
def effectOf (c : Config) (i : Instr) (x y : Word) (b : Byte) : Effect :=
  if implemented c i.opcode then
    match i with
    | .add _ _ => if 0xFFFFFFFF < x.toNat + y.toNat then .raised (.additionOverflow x y) else .wrote (x + y)
    | .xor _ _ => .wrote (x ^^^ y)
    | .ldw _ _ => if y.toNat < c.memSize then .wrote (zext32 b) else .raised (.memoryOverflow y)
    | .stw _ _ => if y.toNat < c.memSize then .stored y.toNat (lowByte x) else .raised (.memoryOverflow y)
  else .raised (.unsupportedOpCode i.opcode)

/-- The effect of an instruction in a state. -/
def State.effect (s : State) (i : Instr) : Effect :=
  effectOf s.config i (s.reg i.op0.toNat) (s.reg i.op1.toNat) (s.byte (s.reg i.op1.toNat).toNat)

section Equations

variable {s : State}

theorem effect_of_unimplemented {i : Instr} (hi : implemented s.config i.opcode = false) :
    s.effect i = .raised (.unsupportedOpCode i.opcode) :=
  if_neg (Bool.eq_false_iff.1 hi)

theorem effect_add (d r : RegIdx) : s.effect (.add d r) =
    if 0xFFFFFFFF < (s.reg d.toNat).toNat + (s.reg r.toNat).toNat then
      .raised (.additionOverflow (s.reg d.toNat) (s.reg r.toNat))
    else .wrote (s.reg d.toNat + s.reg r.toNat) := rfl

theorem effect_xor (d r : RegIdx) : s.effect (.xor d r) = .wrote (s.reg d.toNat ^^^ s.reg r.toNat) := rfl

theorem effect_ldw (hls : s.config.loadStoreEnabled = true) (d a : RegIdx) : s.effect (.ldw d a) =
    if (s.reg a.toNat).toNat < s.config.memSize then .wrote (zext32 (s.byte (s.reg a.toNat).toNat))
    else .raised (.memoryOverflow (s.reg a.toNat)) :=
  if_pos hls

theorem effect_stw (hls : s.config.loadStoreEnabled = true) (v a : RegIdx) : s.effect (.stw v a) =
    if (s.reg a.toNat).toNat < s.config.memSize then .stored (s.reg a.toNat).toNat (lowByte (s.reg v.toNat))
    else .raised (.memoryOverflow (s.reg a.toNat)) :=
  if_pos hls

end Equations

/-- A validated instruction answers its effect on the state. -/
theorem exec_eq_effect {i : Instr} {s : State} (hw : i.WellFormed s.config) :
    exec i s = .next ((s.effect i).apply i.op0.toNat s) := by
  cases hi : implemented s.config i.opcode with
  | false =>
    rw [exec_of_unimplemented hw hi, effect_of_unimplemented hi]
    rfl
  | true =>
    obtain ⟨h0, h1⟩ := hw
    cases i with
    | add d r =>
      rw [effect_add]
      split_ifs with hsum
      · exact execAdd_overflows h0 h1 hsum
      · exact execAdd_fits h0 h1 (Nat.le_of_not_lt hsum)
    | xor d r => exact execXor_eq h0 h1
    | ldw d a =>
      rw [effect_ldw hi]
      split_ifs with hb
      · exact execLdw_in_bounds h0 h1 hi hb
      · exact execLdw_out_of_bounds h0 h1 hi (Nat.le_of_not_lt hb)
    | stw v a =>
      rw [effect_stw hi]
      split_ifs with hb
      · exact execStw_in_bounds h0 h1 hi hb
      · exact execStw_out_of_bounds h0 h1 hi (Nat.le_of_not_lt hb)

/-- The next state of an instruction is its effect on the state. -/
theorem eq_apply_of_exec {i : Instr} {s t : State} (h : exec i s = .next t) : t = (s.effect i).apply i.op0.toNat s :=
  Host.Outcome.next.inj (h.symm.trans (exec_eq_effect (wellFormed_of_exec_next h)))

end Sys2Proof.Machine

/-! # The invariants of a run (spec/10_state.md section 9, spec/20_memory.md)

What `construct` establishes and every update keeps, first of `State.Inv` and then of `State.Granular`; the cases of a step give
the step statements, and an induction over `Reachable` the statement about all runs. -/

namespace Sys2Proof.Machine

/-! ## The well-formedness of the block -/

section Inv

variable {s : State}

theorem inv_constructed {c : Config} (hc : c.WellFormed) : (State.constructed c).Inv where
  config_legal := hc
  file_size _ := by simp [seedRegs]
  mem_canonical := Memory.wf_nil
  mem_bounded := by simp
  dropped_empty h := nomatch h

/-- The queue and the answer are no part of the block (R30). -/
theorem State.Inv.withPending (h : s.Inv) (q : List Transaction) : (s.withPending q).Inv := { h with }

theorem State.Inv.answer (h : s.Inv) (r : Result) : (s.answer r).Inv := { h with }

theorem State.Operable.withPending (h : s.Operable) (q : List Transaction) : (s.withPending q).Operable :=
  ⟨h.1.withPending q, h.2⟩

/-- Only a constructed block has registers and memory to write. -/
theorem State.Operable.inv_writeReg (h : s.Operable) (n : Nat) (v : Word) : (s.writeReg n v).Inv where
  config_legal := h.1.config_legal
  file_size hp := by simpa using h.1.file_size hp
  mem_canonical := h.1.mem_canonical
  mem_bounded := h.1.mem_bounded
  dropped_empty hp := nomatch h.2.symm.trans hp

theorem State.Operable.inv_store (h : s.Operable) {a : Nat} (ha : a < s.config.memSize) (b : Byte) :
    (s.withMem (s.mem.write a b)).Inv where
  config_legal := h.1.config_legal
  file_size := h.1.file_size
  mem_canonical := Memory.wf_write a b h.1.mem_canonical
  mem_bounded c hc := by
    rcases Memory.mem_write hc with rfl | hc
    · exact ha
    · exact h.1.mem_bounded c hc
  dropped_empty hp := nomatch h.2.symm.trans hp

theorem State.Operable.inv_of_execNext {i : Instr} {t : State} (h : s.Operable) (hx : ExecNext i s t) : t.Inv := by
  cases hx with
  | raised e => exact h.1.answer _
  | wrote v _ => exact (h.inv_writeReg _ v).answer _
  | stored _ ha => exact (h.inv_store ha _).answer _

end Inv

/-- Settles O47, by the cases of a step: `construct` and `drop` establish the invariant, the others keep it. -/
theorem stepKeepsTheInvariant : Obligations.StepKeepsTheInvariant := by
  intro s t hinv h
  cases step_next h with
  | idled _ => exact hinv
  | constructed ceiling size rest _ hc hm =>
    obtain ⟨_, _, htags⟩ := hinv.config_legal
    exact (inv_constructed (c := constructConfig s.config ceiling size) ⟨hc, hm, htags⟩).withPending rest
  | dropped rest _ _ =>
    exact ⟨hinv.config_legal, nofun, Memory.wf_nil, nofun, fun _ => ⟨rfl, rfl⟩⟩
  | answered _ rest r _ _ _ => exact (hinv.withPending rest).answer r
  | executed _ rest i _ _ hphase _ he =>
    have ho : s.Operable := ⟨hinv, hphase⟩
    exact (ho.withPending rest).inv_of_execNext (exec_next he)

/-- Settles O12. -/
theorem resetMeetsTheInvariant : Obligations.ResetMeetsTheInvariant :=
  inv_constructed (by decide)

/-! ## The reset values (R43, R44) -/

/-- The seed of a register is the number itself wherever it fits in 32 bits. -/
theorem seed_toNat {i : Nat} (h : i < 2 ^ 28) : (seed i).toNat = i * 0x10 :=
  (BitVec.toNat_ofNat ..).trans (Nat.mod_eq_of_lt (by omega))

theorem constructed_reg_toNat {c : Config} (hc : Config.LegalCeiling c.regCeiling) {i : Nat} (hi : i ≤ c.regCeiling) :
    ((State.constructed c).reg i).toNat = i * 0x10 := by
  rw [State.constructed_reg c i (Nat.lt_succ_of_le hi), seed_toNat]
  unfold Config.LegalCeiling at hc
  omega

theorem constructed_x_length (c : Config) : (State.constructed c).x.length = c.regCeiling + 1 := by
  simp [seedRegs, Config.regCount]

/-- Settles O9. -/
theorem constructBuildsTheResetState : Obligations.ConstructBuildsTheResetState := by
  intro s ceiling size rest hc hm hp
  refine ⟨_, step_construct hc hm hp, rfl, rfl, rfl, rfl, constructed_x_length _, fun i hi => ?_, fun _ _ => rfl, rfl, rfl, rfl⟩
  exact constructed_reg_toNat (c := constructConfig s.config ceiling size) hc hi

/-- Settles O11: the reset state is what `construct` builds under this hardware's configuration. -/
theorem resetValuesOfTheHardware : Obligations.ResetValuesOfTheHardware :=
  ⟨constructed_x_length hwConfig, fun _ => constructed_reg_toNat (c := hwConfig) (.inl rfl), fun _ _ => rfl, rfl, rfl⟩

/-- Settles O13. -/
theorem dropDiscardsTheBlock : Obligations.DropDiscardsTheBlock := by
  intro s rest h hp
  have hdrop : step s = doDrop (s.withPending rest) := by
    rw [step_of_pending hp, transact, onBlock_withPending h]
  exact ⟨_, hdrop, rfl, rfl, rfl, rfl, rfl, rfl⟩

/-! ## Granularity (R46) -/

section Granular

variable {s : State}

/-- Every seed is a multiple of 0x10, and an index beyond the file reads as 0. -/
theorem granular_constructed (c : Config) : (State.constructed c).Granular := by
  refine ⟨fun n => ?_, fun _ => rfl⟩
  by_cases hn : n < c.regCount
  · rw [State.constructed_reg c n hn, seed, BitVec.toNat_ofNat]
    omega
  · simp [State.reg, seedRegs, hn]

theorem State.Granular.writeReg (h : s.Granular) (n : Nat) {v : Word} (hv : v.toNat % 0x10 = 0) :
    (s.writeReg n v).Granular := by
  obtain ⟨hregs, hbytes⟩ := h
  refine ⟨fun k => ?_, hbytes⟩
  rcases s.writeReg_reg_or n k v with hk | hk <;> rw [hk]
  · exact hv
  · exact hregs k

theorem State.Granular.store (h : s.Granular) (hm : s.mem.wf = true) (a : Nat) {b : Byte} (hb : b.toNat % 0x10 = 0) :
    (s.withMem (s.mem.write a b)).Granular := by
  obtain ⟨hregs, hbytes⟩ := h
  refine ⟨hregs, fun k => ?_⟩
  rw [State.withMem_byte]
  by_cases hk : k = a
  · rwa [hk, Memory.read_write_self a b hm]
  · rw [Memory.read_write_other b hk]
    exact hbytes k

/-- An effect that writes or stores multiples of 0x10 alone. -/
def Effect.Granular : Effect → Prop
  | .raised _ => True
  | .wrote v => v.toNat % 0x10 = 0
  | .stored _ b => b.toNat % 0x10 = 0

theorem State.Granular.apply (h : s.Granular) (hm : s.mem.wf = true) {f : Effect} (hf : f.Granular) (d : Nat) :
    (f.apply d s).Granular := by
  cases f with
  | raised e => exact h
  | wrote v => exact h.writeReg d hf
  | stored a b => exact h.store hm a hf

/-- Sums, exclusive-ors, loaded bytes and low bytes of multiples of 0x10 are multiples of 0x10. -/
theorem State.Granular.effect (h : s.Granular) (i : Instr) : (s.effect i).Granular := by
  obtain ⟨hregs, hbytes⟩ := h
  cases hi : implemented s.config i.opcode with
  | false =>
    rw [effect_of_unimplemented hi]
    trivial
  | true =>
    cases i with
    | add d r =>
      have hd := hregs d.toNat
      have hr := hregs r.toNat
      rw [effect_add]
      split_ifs
      · trivial
      · simp only [Effect.Granular, BitVec.toNat_add]
        omega
    | xor d r =>
      rw [effect_xor, Effect.Granular, BitVec.toNat_xor, show 0x10 = 2 ^ 4 from rfl, Nat.xor_mod_two_pow]
      simp [hregs]
    | ldw d a =>
      rw [effect_ldw hi]
      split_ifs
      · exact (congrArg (· % 0x10) (zext32_toNat _)).trans (hbytes _)
      · trivial
    | stw k a =>
      have hk := hregs k.toNat
      rw [effect_stw hi]
      split_ifs
      · simp only [Effect.Granular, lowByte_toNat]
        omega
      · trivial

end Granular

/-- Settles O48: `construct` seeds multiples of 0x10, and an instruction has a granular effect. -/
theorem stepKeepsGranularity : Obligations.StepKeepsGranularity := by
  intro s t hinv hg h
  cases step_next h with
  | idled _ => exact hg
  | constructed ceiling size rest _ _ _ => exact granular_constructed (constructConfig s.config ceiling size)
  | dropped rest _ _ => exact ⟨fun _ => rfl, fun _ => rfl⟩
  | answered _ rest r _ _ _ => exact hg
  | executed _ rest i _ _ _ _ he =>
    have hg' : (s.withPending rest).Granular := hg
    rw [eq_apply_of_exec he]
    exact hg'.apply hinv.mem_canonical (hg'.effect i) _

/-! ## Every reachable state -/

theorem Reachable.inv {s : State} (h : Reachable s) : s.Inv := by
  induction h with
  | constructed c q hc => exact (inv_constructed hc).withPending q
  | step s t _ hst ih => exact stepKeepsTheInvariant s t ih hst

theorem Reachable.granular {s : State} (h : Reachable s) : s.Granular := by
  induction h with
  | constructed c q _ => exact granular_constructed c
  | step s t hs hst ih => exact stepKeepsGranularity s t hs.inv ih hst

/-- Settles O49: 0xFFF is not a multiple of 0x10. -/
theorem reachableStatesAreGranular : Obligations.ReachableStatesAreGranular := by
  intro s h
  refine ⟨h.granular, fun n hn => ?_⟩
  have hmod := h.granular.1 n
  rw [hn] at hmod
  exact absurd hmod (by decide)

end Sys2Proof.Machine

/-! # The opcode map and the encoder (spec/30_encoding.md R75, R78, R83)

What a tag maps to, what a decoded word says of its fields, and from them the round trip. -/

namespace Sys2Proof

/-! ## The opcode map -/

theorem OpcodeTags.eq_tagOf_of_lookup {m : OpcodeTags} {t : Tag} {op : OpCode} (h : m.lookup t = some op) :
    t = m.tagOf op := by
  unfold OpcodeTags.lookup at h
  split_ifs at h with hldw hstw hadd hxor <;> cases h <;> assumption

/-- Settles O4. -/
theorem opcodeMapIsClosed : Obligations.OpcodeMapIsClosed := by
  intro m t op hm
  refine ⟨OpcodeTags.eq_tagOf_of_lookup, ?_⟩
  rintro rfl
  exact OpcodeTags.lookup_tagOf hm op

/-- A tag without an opcode is none of the four of the map (R76). -/
theorem OpcodeTags.lookup_eq_none_iff {m : OpcodeTags} {t : Tag} :
    m.lookup t = none ↔ t ≠ m.ldw ∧ t ≠ m.stw ∧ t ≠ m.add ∧ t ≠ m.xor := by
  unfold OpcodeTags.lookup
  split_ifs <;> simp_all

/-- The four tags of this hardware are the first four (D5). -/
theorem lookup_hwTags_eq_none_iff (t : Tag) : Machine.hwTags.lookup t = none ↔ 4 ≤ t.toNat := by
  rw [OpcodeTags.lookup_eq_none_iff]
  simp only [Machine.hwTags, ne_eq, ← BitVec.toNat_inj, BitVec.toNat_ofNat]
  omega

/-- Settles O5: the ceiling of this hardware admits every operand, so the tag alone decides. -/
theorem hardwareRefusesExactlyTheUnmappedTags : Obligations.HardwareRefusesExactlyTheUnmappedTags := by
  intro w
  rw [← tagField_toNat]
  refine ⟨fun h => ?_, fun h => ⟨tagField w, rfl, decode_of_unmapped ((lookup_hwTags_eq_none_iff _).2 h)⟩⟩
  have hinRange (r : RegIdx) : ¬ Machine.hwConfig.regCeiling < r.toNat := Nat.not_lt.2 (Nat.le_of_lt_succ r.isLt)
  have hmapped : Machine.hwTags.lookup (tagField w) ≠ none := fun hn => absurd h ((lookup_hwTags_eq_none_iff _).1 hn).not_gt
  obtain ⟨op, hop⟩ := Option.ne_none_iff_exists'.1 hmapped
  exact ⟨_, decode_of_inRange hop (hinRange _) (hinRange _)⟩

/-- Settles O6: the outcomes of `decode` at ceiling 7. -/
theorem smallCeilingRejectsOperands : Obligations.SmallCeilingRejectsOperands := by
  intro c w op hc hop
  rw [← op0Field_toNat, ← op1Field_toNat]
  refine ⟨fun h0 => ?_, fun h0 h1 => ?_, fun h0 h1 => ?_⟩
  · exact decode_of_op0_gt hop (by omega)
  · exact decode_of_op1_gt hop (by omega) (by omega)
  · exact ⟨_, decode_of_inRange hop (by omega) (by omega), mkInstr_opcode ..⟩

/-! ## The round trip -/

theorem mkInstr_eta (i : Instr) : mkInstr i.opcode i.op0 i.op1 = i := by cases i <;> rfl

/-- The three fields of a word are those of the instruction it decodes to. -/
theorem fields_of_decode {c : Config} {w : Word} {i : Instr} (h : decode c w = .ok i) :
    tagField w = c.tags.tagOf i.opcode ∧ op0Field w = i.op0 ∧ op1Field w = i.op1 := by
  unfold decode at h
  split at h
  case h_1 => cases h
  case h_2 op hop =>
    split_ifs at h
    cases h
    simpa using OpcodeTags.eq_tagOf_of_lookup hop

/-- The three fields are the whole lower half of a word (R71). -/
theorem lowerHalf_of_fields {v w : Word} (ht : tagField v = tagField w) (h0 : op0Field v = op0Field w)
    (h1 : op1Field v = op1Field w) : v.toNat % 2 ^ 16 = w.toNat % 2 ^ 16 := by
  simp only [← BitVec.toNat_inj, tagField_toNat, op0Field_toNat, op1Field_toNat] at ht h0 h1
  omega

/-- The encoder leaves the upper half clear (R83). -/
theorem encode_toNat_lt (m : OpcodeTags) (i : Instr) : (encode m i).toNat < 2 ^ 16 := by
  obtain ⟨_, _, _, hupper⟩ := encode_fields m i
  have hzero := congrArg BitVec.toNat hupper
  simp only [BitVec.extractLsb'_toNat, Nat.shiftRight_eq_div_pow, BitVec.toNat_ofNat] at hzero
  omega

/-- Settles O7: the encoder puts each field where the decoder reads it, and a word in the lower half is its three fields. -/
theorem decodeEncodeRoundTrip : Obligations.DecodeEncodeRoundTrip := by
  intro c htags
  refine ⟨fun i hw => ?_, fun w i hd => ?_⟩
  · obtain ⟨ht, h0, h1, _⟩ := encode_fields c.tags i
    obtain ⟨hop0, hop1⟩ := hw
    rw [← h0] at hop0
    rw [← h1] at hop1
    rw [decode_of_inRange (ht ▸ OpcodeTags.lookup_tagOf htags i.opcode) (Nat.not_lt.2 hop0) (Nat.not_lt.2 hop1), h0, h1,
      mkInstr_eta]
  · obtain ⟨ht, h0, h1, _⟩ := encode_fields c.tags i
    obtain ⟨ht', h0', h1'⟩ := fields_of_decode hd
    rw [← Nat.mod_eq_of_lt (encode_toNat_lt c.tags i)]
    exact lowerHalf_of_fields (ht.trans ht'.symm) (h0.trans h0'.symm) (h1.trans h1'.symm)

/-- Settles O8: each word by computation. -/
theorem sampleWordsDecode : Obligations.SampleWordsDecode := by
  unfold Obligations.SampleWordsDecode
  decide

end Sys2Proof

/-! # What an instruction depends on and what it answers (spec/40_dispatch.md R101, spec/42_load_store.md R141)

The statements that compare two executions, or name the answer of one, by the effect of the instruction. -/

namespace Sys2Proof.Machine

/-! ## Equal inputs have one effect -/

section Congr

variable {s s' : State}

theorem effectOf_stw_congr_byte (c : Config) (v a : RegIdx) (x y : Word) (b b' : Byte) :
    effectOf c (.stw v a) x y b = effectOf c (.stw v a) x y b' := rfl

theorem effectOf_ldw_congr_op0 (c : Config) (d a : RegIdx) (x x' y : Word) (b : Byte) :
    effectOf c (.ldw d a) x y b = effectOf c (.ldw d a) x' y b := rfl

/-- STW has its effect by its two registers alone (R141, R146). -/
theorem effect_stw_congr {v a : RegIdx} (hc : s.config = s'.config) (hv : s.reg v.toNat = s'.reg v.toNat)
    (ha : s.reg a.toNat = s'.reg a.toNat) : s.effect (.stw v a) = s'.effect (.stw v a) := by
  simp only [State.effect, Instr.op0, Instr.op1, hc, hv, ha]
  exact effectOf_stw_congr_byte ..

/-- LDW has its effect by its address register and the byte there alone (R141). -/
theorem effect_ldw_congr {d a : RegIdx} (hm : s.mem = s'.mem) (hc : s.config = s'.config)
    (ha : s.reg a.toNat = s'.reg a.toNat) : s.effect (.ldw d a) = s'.effect (.ldw d a) := by
  simp only [State.effect, Instr.op0, Instr.op1, State.byte, hm, hc, ha]
  exact effectOf_ldw_congr_op0 ..

/-- STW alone stores a byte (R145). -/
theorem effect_ne_stored {i : Instr} (hi : i.opcode ≠ .stw) (a : Nat) (b : Byte) : s.effect i ≠ .stored a b := by
  unfold State.effect effectOf
  cases i with
  | stw v r => exact absurd rfl hi
  | _ => split_ifs <;> simp

/-- An instruction other than STW that completes has written a register (R120, R125, R140). -/
theorem effect_eq_wrote_of_ok {i : Instr} (hi : i.opcode ≠ .stw) (hok : (s.effect i).result = .ok .unit) :
    ∃ v, s.effect i = .wrote v := by
  cases hf : s.effect i with
  | raised e => simp [hf, Effect.result] at hok
  | wrote v => exact ⟨v, rfl⟩
  | stored a b => exact absurd hf (effect_ne_stored hi a b)

/-- No other instruction has its effect by a byte of memory (R52). -/
theorem effect_withMem {i : Instr} (hi : ∀ d a, i ≠ .ldw d a) (s : State) (m : Memory) :
    (s.withMem m).effect i = s.effect i := by
  cases i with
  | ldw d a => exact absurd rfl (hi d a)
  | _ => rfl

end Congr

/-- What an effect writes is what the destination holds afterwards. -/
theorem reg_apply_wrote {s : State} {d : RegIdx} (ho : s.Operable) (hd : s.config.RegInRange d) (v : Word) :
    ((Effect.wrote v).apply d.toNat s).reg d.toNat = v :=
  s.writeReg_reg_self _ v (ho.lt_length hd)

/-- Settles O30: one effect on one memory. -/
theorem stwDependsOnItsTwoRegistersOnly : Obligations.StwDependsOnItsTwoRegistersOnly := by
  intro s s' v a hm hc hv ha t ht
  have hw := wellFormed_of_exec_next ht
  rw [eq_apply_of_exec ht, effect_stw_congr hc hv ha]
  refine ⟨_, exec_eq_effect (hc ▸ hw), ?_, rfl⟩
  simp only [Effect.apply_mem, hm]

/-- Settles O52: one effect on one memory; where it completes, it is a write of one value to the destination. -/
theorem ldwDependsOnItsAddressRegisterOnly : Obligations.LdwDependsOnItsAddressRegisterOnly := by
  intro s s' d a ho ho' hm hc ha t ht
  have hw := wellFormed_of_exec_next ht
  have hw' : (Instr.ldw d a).WellFormed s'.config := hc ▸ hw
  rw [eq_apply_of_exec ht, effect_ldw_congr hm hc ha]
  refine ⟨_, exec_eq_effect hw', rfl, ?_, fun hok => ?_⟩
  · simp only [Effect.apply_mem, hm]
  · obtain ⟨v, hv⟩ := effect_eq_wrote_of_ok (i := .ldw d a) nofun (Option.some.inj hok)
    rw [hv]
    exact (reg_apply_wrote ho' hw'.1 v).trans (reg_apply_wrote ho hw.1 v).symm

/-! ## The first failing check (R168, R169) -/

/-- The two checks of a load or store (R101, R56). -/
theorem effect_result_loadStore {s : State} {i : Instr} (hop : i.opcode = .ldw ∨ i.opcode = .stw) : (s.effect i).result =
    if s.config.loadStoreEnabled = false then .err (.unsupportedOpCode i.opcode)
    else if s.config.memSize ≤ (s.reg i.op1.toNat).toNat then .err (.memoryOverflow (s.reg i.op1.toNat))
    else .ok .unit := by
  cases hls : s.config.loadStoreEnabled with
  | false => rw [effect_of_unimplemented ((implemented_loadStore hop).trans hls), if_pos rfl, Effect.result_raised]
  | true =>
    simp only [Bool.true_eq_false, if_false, ← Nat.not_lt, ite_not]
    cases i with
    | ldw d a => rw [effect_ldw hls, apply_ite Effect.result]; rfl
    | stw v a => rw [effect_stw hls, apply_ite Effect.result]; rfl
    | _ => simp [Instr.opcode] at hop

/-- The checks of an instruction in the order of R168, and `Ok(())` where none fails. -/
theorem effect_result (s : State) (i : Instr) : (s.effect i).result =
    if (i.opcode = .ldw ∨ i.opcode = .stw) ∧ s.config.loadStoreEnabled = false then .err (.unsupportedOpCode i.opcode)
    else if i.opcode = .add ∧ 2 ^ 32 ≤ (s.reg i.op0.toNat).toNat + (s.reg i.op1.toNat).toNat then
      .err (.additionOverflow (s.reg i.op0.toNat) (s.reg i.op1.toNat))
    else if (i.opcode = .ldw ∨ i.opcode = .stw) ∧ s.config.memSize ≤ (s.reg i.op1.toNat).toNat then
      .err (.memoryOverflow (s.reg i.op1.toNat))
    else .ok .unit := by
  cases i with
  | add d r =>
    rw [effect_add]
    simp [Instr.opcode, Instr.op0, Instr.op1, apply_ite Effect.result, Nat.succ_le_iff]
  | xor d r =>
    rw [effect_xor]
    simp [Instr.opcode]
  | ldw d a =>
    rw [effect_result_loadStore (.inl rfl)]
    simp [Instr.opcode]
  | stw v a =>
    rw [effect_result_loadStore (.inr rfl)]
    simp [Instr.opcode]

/-- Settles O20: the decoder's checks come first, then those of the instruction. -/
theorem firstFailingCheckIsReported : Obligations.FirstFailingCheckIsReported := by
  intro s w rest h hp
  have failed {e : Error} (hd : decode s.config w = .error e) :
      ∃ t, step s = .next t ∧ t.result = some (.err e) := ⟨_, step_word_of_error h hp hd, rfl⟩
  cases hop : s.config.tags.lookup (tagField w) with
  | none => exact failed (decode_of_unmapped hop)
  | some op =>
    by_cases h0 : s.config.regCeiling < (op0Field w).toNat
    · simpa only [if_pos h0] using failed (decode_of_op0_gt hop h0)
    by_cases h1 : s.config.regCeiling < (op1Field w).toNat
    · simpa only [if_neg h0, if_pos h1] using failed (decode_of_op1_gt hop h0 h1)
    have hd := decode_of_inRange hop h0 h1
    refine ⟨_, (step_of_runs h hp (.inr ⟨w, rfl, hd⟩)).trans (exec_eq_effect (wellFormed_of_decode hd)), ?_⟩
    rw [Effect.apply_result, effect_result]
    simp only [if_neg h0, if_neg h1, mkInstr_opcode, mkInstr_op0, mkInstr_op1, State.withPending_config,
      State.withPending_reg]
    split_ifs <;> rfl

/-- Settles O34: an opcode that the build lacks fails the check before any other, and the check is the only one to answer so. -/
theorem disabledLoadStoreIsUnsupported : Obligations.DisabledLoadStoreIsUnsupported := by
  intro s i hw
  refine ⟨fun hls hop => ?_, fun himp => ⟨_, exec_eq_effect hw, fun op => ?_⟩⟩
  · exact ⟨_, exec_of_unimplemented hw ((implemented_loadStore hop).trans hls), sameRegs_answer _, sameBytes_answer _,
      ⟨rfl, rfl, rfl⟩, rfl⟩
  · have hno : ¬ ((i.opcode = .ldw ∨ i.opcode = .stw) ∧ s.config.loadStoreEnabled = false) := by
      rcases himp with hls | hop | hop <;> simp [*]
    rw [Effect.apply_result, effect_result, if_neg hno]
    split_ifs <;> simp

/-- Settles O31. -/
theorem loadStoreOutOfBoundsReportsTheAddress : Obligations.LoadStoreOutOfBoundsReportsTheAddress := by
  intro s d a i hi hw hls hb
  have hout : exec i s = .next (s.answer (.err (.memoryOverflow (s.reg a.toNat)))) := by
    rcases hi with rfl | rfl
    · exact exec_loadStore_out_of_bounds (.inl rfl) hw hls hb
    · exact exec_loadStore_out_of_bounds (.inr rfl) hw hls hb
  exact ⟨_, hout, sameRegs_answer _, sameBytes_answer _, ⟨rfl, rfl, rfl⟩, rfl⟩

/-- Settles O24: the value written is zero on one register, and undone by a second exclusive-or on two. -/
theorem xorTwiceRestores : Obligations.XorTwiceRestores := by
  intro s d r ho hd hr
  obtain ⟨t, ht, htreg, htregs, -, hthost, -⟩ := exec_result_of_writes (i := .xor d r) ho rfl ⟨hd, hr⟩
  refine ⟨t, ht, ?_, fun hne => ?_⟩
  · rintro rfl
    exact htreg.trans BitVec.xor_self
  · obtain ⟨hconfig, hphase, -⟩ := hthost
    have hto : t.Operable := ⟨ho.inv_of_execNext (exec_next ht), hphase.trans ho.2⟩
    obtain ⟨u, hu, hureg, huregs, -⟩ := exec_result_of_writes (i := .xor d r) hto rfl (hconfig ▸ ⟨hd, hr⟩)
    have hsource : t.reg r.toNat = s.reg r.toNat := htregs.2 _ fun h => hne (BitVec.eq_of_toNat_eq h.symm)
    refine ⟨u, hu, huregs.1.trans htregs.1, fun n => ?_⟩
    by_cases hn : n = d.toNat
    · subst hn
      calc u.reg d.toNat = t.reg d.toNat ^^^ t.reg r.toNat := hureg
        _ = (s.reg d.toNat ^^^ s.reg r.toNat) ^^^ s.reg r.toNat := congrArg₂ (· ^^^ ·) htreg hsource
        _ = s.reg d.toNat := by rw [BitVec.xor_assoc, BitVec.xor_self, BitVec.xor_zero]
    · exact (huregs.2 n hn).trans (htregs.2 n hn)

/-- Settles O45: five bits hold no index above 31. -/
theorem canonicalCeilingRefusesNoInstruction : Obligations.CanonicalCeilingRefusesNoInstruction := by
  intro s i hc
  have hinRange (r : RegIdx) : s.config.RegInRange r := (Nat.le_of_lt_succ r.isLt).trans_eq hc.symm
  exact ⟨_, exec_eq_effect ⟨hinRange _, hinRange _⟩⟩

end Sys2Proof.Machine

/-! # What a step depends on and what it changes (spec/10_state.md section 2, spec/20_memory.md sections 1 and 5)

The whole-machine rules. Between two lifecycle transactions a step leaves the block as it was or applies the effect of one
instruction to it; the rules on registers and memory follow, and over a run that memory is the log of its stores. -/

namespace Sys2Proof.Machine

/-! ## The recorded answer plays no part (R106, R172) -/

/-- The only instruction without a meaning is an unvalidated one (R102). -/
theorem exec_of_not_wellFormed {i : Instr} {s : State} (hw : ¬ i.WellFormed s.config) :
    exec i s = .refused .unvalidatedInstruction := by
  obtain ⟨_, hr⟩ | ⟨hw', _⟩ := exec_cases i s
  · exact hr
  · exact absurd hw' hw

section Result

variable (s : State) (r : Option Result)

/-- An effect depends on no earlier answer and leaves one of its own. -/
theorem exec_withResult (i : Instr) : exec i { s with result := r } = exec i s := by
  by_cases hw : i.WellFormed s.config
  · rw [exec_eq_effect hw]
    exact exec_eq_effect (s := { s with result := r }) hw
  · rw [exec_of_not_wellFormed hw]
    exact exec_of_not_wellFormed (s := { s with result := r }) hw

theorem transact_withResult (t : Transaction) : transact t { s with result := r } = transact t s := by
  cases t with
  | execute i => exact congrArg (onBlock s) (exec_withResult s r i)
  | step w =>
    refine congrArg (onBlock s) ?_
    simp only [doStep, exec_withResult]
    rfl
  | _ => rfl

end Result

/-- Settles O38. -/
theorem earlierResultsDoNotMatter : Obligations.EarlierResultsDoNotMatter := by
  intro s r hne
  obtain ⟨t, rest, hp⟩ := List.exists_cons_of_ne_nil hne
  rw [step_of_pending hp, step_of_pending (s := { s with result := r }) hp]
  exact transact_withResult (s.withPending rest) r t

/-- Settles O19: the answer of `decode` stands in the state that `execute` then runs in, and does not matter there. -/
theorem stepIsDecodeThenExecute : Obligations.StepIsDecodeThenExecute := by
  intro s w rest h
  refine ⟨fun i hd => ?_, fun e hd => ?_⟩
  · have hdecode := step_decode_of_ok (s := s.withPending (.decode w :: .execute i :: rest)) h rfl hd
    have hstep := step_of_runs (s := s.withPending (.step w :: rest)) h rfl (.inr ⟨w, rfl, hd⟩)
    refine ⟨_, hdecode, rfl, ?_⟩
    rw [hstep, step_execute (by exact h) rfl]
    exact exec_withResult (s.withPending rest) _ i
  · have hdecode := step_decode_of_error (s := s.withPending (.decode w :: rest)) h rfl hd
    have hstep := step_word_of_error (s := s.withPending (.step w :: rest)) h rfl hd
    exact hdecode.trans hstep.symm

/-- Settles O15: the queue behind the word is the one of the state itself. -/
theorem placedWordRunsNext : Obligations.PlacedWordRunsNext := by
  intro s w i h hc hw
  have hd : decode s.config (tableWord 32 w) = .ok i := by
    unfold decodeTableWord at hw
    split at hw
    case h_1 j hj =>
      cases hw
      exact hc ▸ hj
    case h_2 => cases hw
  exact step_of_runs (s := s.withFetchWord 32 w) h rfl (.inr ⟨_, rfl, hd⟩)

/-- Settles O16. -/
theorem idleStepChangesNothing : Obligations.IdleStepChangesNothing := by
  intro s hp
  rw [step, hp, idle]

/-! ## A step between two lifecycle transactions -/

theorem nextIsLifecycle_construct {s : State} {ceiling size : Nat} {rest : List Transaction}
    (hp : s.pending = .construct ceiling size :: rest) : s.nextIsLifecycle = true := by
  rw [State.nextIsLifecycle, hp]

theorem nextIsLifecycle_drop {s : State} {rest : List Transaction} (hp : s.pending = .drop :: rest) :
    s.nextIsLifecycle = true := by
  rw [State.nextIsLifecycle, hp]

/-- Such a step runs nothing and leaves the block as it was, or applies the effect of the instruction it runs. -/
theorem step_within_block {s t : State} (h : step s = .next t) (hl : s.nextIsLifecycle = false) :
    (s.nextInstr = none ∧ SameBlock s t) ∨
    (∃ i rest, s.nextInstr = some i ∧ t = (s.effect i).apply i.op0.toNat (s.withPending rest)) := by
  cases step_next h with
  | idled hp => exact .inl ⟨nextInstr_idle hp, rfl, rfl, rfl, rfl⟩
  | constructed ceiling size rest hp _ _ => exact nomatch hl.symm.trans (nextIsLifecycle_construct hp)
  | dropped rest hp _ => exact nomatch hl.symm.trans (nextIsLifecycle_drop hp)
  | answered _ rest r _ _ hi => exact .inl ⟨hi, sameBlock_withPending_answer ..⟩
  | executed _ rest i _ _ _ hi he => exact .inr ⟨i, rest, hi, eq_apply_of_exec he⟩

/-- Settles O37: an error is an answer from the unchanged block, and every other next state has another result. -/
theorem errorsChangeNothing : Obligations.ErrorsChangeNothing := by
  intro s t e h he
  cases step_next h with
  | idled _ => exact ⟨rfl, rfl, rfl, rfl⟩
  | constructed ceiling size rest _ _ _ => exact nomatch he
  | dropped rest _ _ => exact nomatch he
  | answered _ rest r _ _ _ => exact sameBlock_withPending_answer ..
  | executed _ rest i _ _ _ _ hx =>
    cases exec_next hx with
    | raised _ => exact sameBlock_withPending_answer ..
    | wrote _ _ => exact nomatch he
    | stored _ _ => exact nomatch he

/-! ## What an effect changes -/

/-- A register that an effect changes is the destination of a write. -/
theorem reg_apply_ne {s : State} {f : Effect} {d n : Nat} (h : (f.apply d s).reg n ≠ s.reg n) :
    n = d ∧ ∃ v, f = .wrote v := by
  cases f with
  | wrote v => exact ⟨by_contra fun hn => h (s.writeReg_reg_other d n v hn), v, rfl⟩
  | _ => exact absurd rfl h

/-- A byte that an effect changes is the one of a store. -/
theorem byte_apply_ne {s : State} {f : Effect} {d a : Nat} (h : (f.apply d s).byte a ≠ s.byte a) :
    ∃ b, f = .stored a b := by
  cases f with
  | stored a' b =>
    obtain rfl : a = a' := by_contra fun ha => h (Memory.read_write_other b ha s.mem)
    exact ⟨b, rfl⟩
  | _ => exact absurd rfl h

/-- The one instruction that stores is an STW in bounds, and what it stores is its low byte (R145, R146). -/
theorem effect_eq_stored {s : State} {i : Instr} {a : Nat} {b : Byte} (h : s.effect i = .stored a b) :
    ∃ v r, i = .stw v r ∧ s.config.loadStoreEnabled = true ∧ (s.reg r.toNat).toNat = a ∧ a < s.config.memSize ∧
      b = lowByte (s.reg v.toNat) := by
  cases i with
  | stw v r =>
    cases hls : s.config.loadStoreEnabled with
    | false =>
      rw [effect_of_unimplemented (i := .stw v r) hls] at h
      cases h
    | true =>
      rw [effect_stw hls] at h
      split_ifs at h with hb
      cases h
      exact ⟨v, r, rfl, rfl, rfl, hb, rfl⟩
  | _ => exact absurd h (effect_ne_stored (by simp [Instr.opcode]) a b)

/-- STW writes no register (R145). -/
theorem effect_stw_ne_wrote (s : State) (k a : RegIdx) (v : Word) : s.effect (.stw k a) ≠ .wrote v := by
  unfold State.effect effectOf
  split_ifs <;> simp

/-- Settles O39: a changed register is the destination of a write, which completes. -/
theorem onlyTheDestinationRegisterChanges : Obligations.OnlyTheDestinationRegisterChanges := by
  intro s t n h hl hne
  obtain ⟨_, hx, _⟩ | ⟨i, rest, hi, rfl⟩ := step_within_block h hl
  · exact absurd (congrArg (·.getD n 0#32) hx) hne
  · obtain ⟨rfl, v, hv⟩ := reg_apply_ne hne
    refine ⟨i, hi, rfl, fun hop => ?_, congrArg (some ∘ Effect.result) hv⟩
    cases i with
    | stw k a => exact effect_stw_ne_wrote s k a v hv
    | _ => cases hop

/-- Settles O40: a changed byte is the one of a store, which completes. -/
theorem onlyStwChangesMemory : Obligations.OnlyStwChangesMemory := by
  intro s t a hm h hl hne
  obtain ⟨_, _, hmem, _⟩ | ⟨i, rest, hi, rfl⟩ := step_within_block h hl
  · exact absurd (congrArg (·.read a) hmem) hne
  · obtain ⟨b, hb⟩ := byte_apply_ne hne
    obtain ⟨v, r, rfl, _, haddr, hlt, hlow⟩ := effect_eq_stored hb
    refine ⟨v, r, hi, haddr, hlt, ?_, congrArg (some ∘ Effect.result) hb⟩
    rw [hb, ← hlow]
    exact Memory.read_write_self a b hm

/-! ## What a step leaves of memory -/

/-- The cell that an effect stores. -/
def Effect.store? : Effect → Option (Nat × Byte)
  | .stored a b => some (a, b)
  | _ => none

/-- The memory after the store of a cell, if there is one. -/
def Memory.storing (m : Memory) : Option (Nat × Byte) → Memory
  | some (a, b) => m.write a b
  | none => m

theorem Effect.onMem_eq_storing (m : Memory) (f : Effect) : f.onMem m = m.storing f.store? := by cases f <;> rfl

/-- The store of the next transaction is the one its instruction has as its effect. -/
theorem nextStore_of_nextInstr {s : State} {i : Instr} (hi : s.nextInstr = some i) :
    s.nextStore = (s.effect i).store? := by
  rw [State.nextStore, hi]
  cases i with
  | stw v a =>
    cases hls : s.config.loadStoreEnabled with
    | false =>
      rw [effect_of_unimplemented (i := .stw v a) hls]
      rfl
    | true =>
      rw [effect_stw hls]
      by_cases hb : (s.reg a.toNat).toNat < s.config.memSize <;> simp [hb, Effect.store?]
  | _ =>
    unfold State.effect effectOf
    split_ifs <;> rfl

theorem nextStore_of_no_instr {s : State} (hi : s.nextInstr = none) : s.nextStore = none := by
  rw [State.nextStore, hi]

/-- Memory after a step is memory before it with the one store of the step, if it makes one (R52). -/
theorem step_mem {s t : State} (h : step s = .next t) (hl : s.nextIsLifecycle = false) :
    t.mem = s.mem.storing s.nextStore := by
  obtain ⟨hi, _, hmem, _⟩ | ⟨i, rest, hi, rfl⟩ := step_within_block h hl
  · rw [nextStore_of_no_instr hi]
    exact hmem
  · rw [nextStore_of_nextInstr hi]
    exact Effect.onMem_eq_storing s.mem (s.effect i)

theorem Memory.wf_storing {m : Memory} (hm : m.wf = true) (c : Option (Nat × Byte)) : (m.storing c).wf = true := by
  cases c with
  | none => exact hm
  | some c => exact Memory.wf_write c.1 c.2 hm

/-! ## Memory is the log of its stores (R63) -/

theorem latestStore_cons (c : Nat × Byte) (l : List (Nat × Byte)) (a : Nat) :
    latestStore (c :: l) a = if c.1 = a then some c.2 else latestStore l a := by
  by_cases h : c.1 = a <;> simp [latestStore, h]

/-- A read after a store sees the store before what the log holds already. -/
theorem Memory.read_storing {m : Memory} (hm : m.wf = true) {l : List (Nat × Byte)} {a : Nat} {b : Byte}
    (h : m.read a = (latestStore l a).getD b) (c : Option (Nat × Byte)) :
    (m.storing c).read a = (latestStore (c.toList ++ l) a).getD b := by
  match c with
  | none => exact h
  | some (a', b') =>
    rw [Option.toList_some, List.singleton_append, latestStore_cons, Memory.storing]
    split_ifs with ha
    · subst ha
      exact Memory.read_write_self a' b' hm
    · rw [Memory.read_write_other b' (Ne.symm ha), h]

/-- Over a run memory stays canonical, and each byte is the latest one stored or the one it began with. -/
theorem RunStoring.memory {s t : State} {l : List (Nat × Byte)} (hm : s.mem.wf = true) (h : RunStoring s l t) :
    t.mem.wf = true ∧ ∀ a, t.byte a = (latestStore l a).getD (s.byte a) := by
  induction h with
  | start => exact ⟨hm, fun _ => rfl⟩
  | step l t u _ hl hst ih =>
    obtain ⟨hwf, hlog⟩ := ih
    have hmem := step_mem hst hl
    exact ⟨hmem ▸ Memory.wf_storing hwf _, fun a => (congrArg (·.read a) hmem).trans (Memory.read_storing hwf (hlog a) _)⟩

/-- Settles O33: the log by induction over the run, and the load by the effect of an LDW in bounds. -/
theorem loadReturnsTheLatestStore : Obligations.LoadReturnsTheLatestStore := by
  intro s t l hm h
  obtain ⟨_, hlog⟩ := h.memory hm
  refine ⟨hlog, fun d r ho hd hr hls hb => ?_⟩
  obtain ⟨u, hu, hload, _⟩ := exec_result_of_writes ho (writes_ldw d hls hb) ⟨hd, hr⟩
  rw [hlog] at hload
  exact ⟨u, hu, hload⟩

end Sys2Proof.Machine

/-! # Memory seen from outside, and where the machine stops (spec/20_memory.md section 1, spec/70_reset_and_hazards.md section 4)

Two memories that no read tells apart, a step that reads none, and the three stops with the queue that meets no stop. -/

namespace Sys2Proof.Machine

/-! ## The canonical form is unique (log entry 8) -/

/-- The first address listed is the first that reads as a stored byte, so equal reads list it in both memories. -/
theorem Memory.head_le_of_read_eq {a a' lo : Nat} {b b' : Byte} {m m' : Memory}
    (hm : Memory.wfFrom lo ((a, b) :: m) = true) (hm' : Memory.wfFrom lo ((a', b') :: m') = true)
    (h : ∀ k, Memory.read ((a, b) :: m) k = Memory.read ((a', b') :: m') k) : a' ≤ a := by
  obtain ⟨_, hb, _⟩ := (Memory.wfFrom_cons _ _ _ _).1 hm
  obtain ⟨_, hb', htail'⟩ := (Memory.wfFrom_cons _ _ _ _).1 hm'
  by_contra hlt
  have hbelow : Memory.read ((a', b') :: m') a = unwrittenByte :=
    Memory.read_below ((Memory.wfFrom_cons _ _ _ _).2 ⟨Nat.le_refl a', hb', htail'⟩) (Nat.lt_of_not_le hlt)
  rw [← h a, Memory.read_cons, if_pos rfl] at hbelow
  exact hb hbelow

theorem Memory.eq_of_read_eq : ∀ {lo : Nat} {m m' : Memory}, m.wfFrom lo = true → m'.wfFrom lo = true →
    (∀ a, m.read a = m'.read a) → m = m'
  | _, [], [], _, _, _ => rfl
  | lo, [], (a', b') :: m', _, hm', h => by
    obtain ⟨_, hb', _⟩ := (Memory.wfFrom_cons _ _ _ _).1 hm'
    exact absurd (by simpa [Memory.read_cons] using (h a').symm) hb'
  | lo, (a, b) :: m, [], hm, _, h => by
    obtain ⟨_, hb, _⟩ := (Memory.wfFrom_cons _ _ _ _).1 hm
    exact absurd (by simpa [Memory.read_cons] using h a) hb
  | lo, (a, b) :: m, (a', b') :: m', hm, hm', h => by
    obtain rfl : a = a' :=
      Nat.le_antisymm (Memory.head_le_of_read_eq hm' hm fun k => (h k).symm) (Memory.head_le_of_read_eq hm hm' h)
    obtain rfl : b = b' := by simpa [Memory.read_cons] using h a
    obtain ⟨_, _, htail⟩ := (Memory.wfFrom_cons _ _ _ _).1 hm
    obtain ⟨_, _, htail'⟩ := (Memory.wfFrom_cons _ _ _ _).1 hm'
    refine congrArg _ (Memory.eq_of_read_eq htail htail' fun k => ?_)
    by_cases hk : a = k
    · subst hk
      rw [Memory.read_below htail (Nat.lt_succ_self a), Memory.read_below htail' (Nat.lt_succ_self a)]
    · simpa [Memory.read_cons, hk] using h k

/-- Settles O50. -/
theorem canonicalMemoriesAreEqualWhenTheyReadEqual : Obligations.CanonicalMemoriesAreEqualWhenTheyReadEqual :=
  fun _ _ hm hm' h => Memory.eq_of_read_eq hm hm' h

/-! ## A step on another memory (R24, R52) -/

section WithMem

variable {s : State} (m : Memory)

/-- `construct` and `drop` keep nothing of memory. -/
theorem step_withMem_of_lifecycle (hl : s.nextIsLifecycle = true) : step (s.withMem m) = step s := by
  match hp : s.pending with
  | .construct _ _ :: _ | .drop :: _ =>
    rw [step_of_pending hp, step_of_pending (s := s.withMem m) hp]
    rfl
  | [] | .decode _ :: _ | .execute _ :: _ | .registerRead _ :: _ | .step _ :: _ =>
    simp [State.nextIsLifecycle, hp] at hl

/-- A transaction that runs nothing has one answer on every memory. -/
theorem step_withMem_of_answered {t : Transaction} {rest : List Transaction} (h : s.phase = .constructed)
    (hp : s.pending = t :: rest) (hl : s.nextIsLifecycle = false) (hn : s.nextInstr = none) :
    ∃ r, ∀ m, step (s.withMem m) = .next (((s.withMem m).withPending rest).answer r) := by
  cases t with
  | construct ceiling size => exact nomatch hl.symm.trans (nextIsLifecycle_construct hp)
  | decode w =>
    cases hd : decode s.config w with
    | ok i => exact ⟨_, fun m => step_decode_of_ok (s := s.withMem m) h hp hd⟩
    | error e => exact ⟨_, fun m => step_decode_of_error (s := s.withMem m) h hp hd⟩
  | execute i => exact nomatch hn.symm.trans ((nextInstr_eq_some h hp).2 (.inl rfl))
  | registerRead index =>
    exact ⟨if index.toNat ≤ s.config.regCeiling then .ok (.word (s.reg index.toNat)) else .err .op0OutOfRange,
      fun m => step_registerRead (s := s.withMem m) h hp⟩
  | step w =>
    cases hd : decode s.config w with
    | ok i => exact nomatch hn.symm.trans ((nextInstr_eq_some h hp).2 (.inr ⟨w, rfl, hd⟩))
    | error e => exact ⟨_, fun m => step_word_of_error (s := s.withMem m) h hp hd⟩
  | drop => exact nomatch hl.symm.trans (nextIsLifecycle_drop hp)

end WithMem

/-- Settles O41: a transaction that runs no LDW has its answer or its effect without memory. -/
theorem onlyLdwObservesMemory : Obligations.OnlyLdwObservesMemory := by
  intro s t m h hi
  cases hl : s.nextIsLifecycle with
  | true => exact ⟨t, (step_withMem_of_lifecycle m hl).trans h, rfl, rfl, rfl, rfl, rfl⟩
  | false =>
    cases step_next h with
    | idled hp => exact ⟨_, idleStepChangesNothing (s.withMem m) hp, rfl, rfl, rfl, rfl, rfl⟩
    | constructed ceiling size rest hp _ _ => exact nomatch hl.symm.trans (nextIsLifecycle_construct hp)
    | dropped rest hp _ => exact nomatch hl.symm.trans (nextIsLifecycle_drop hp)
    | answered _ rest _ hp hphase hn =>
      obtain ⟨r, hr⟩ := step_withMem_of_answered hphase hp hl hn
      have hself := Host.Outcome.next.inj (h.symm.trans (hr s.mem))
      rw [hself]
      exact ⟨_, hr m, rfl, rfl, rfl, rfl, rfl⟩
    | executed _ rest i _ hp hphase hn he =>
      have hstep : step (s.withMem m) = exec i ((s.withMem m).withPending rest) :=
        step_of_runs (s := s.withMem m) hphase hp ((nextInstr_eq_some hphase hp).1 hn)
      have heffect : (s.withMem m).effect i = s.effect i :=
        effect_withMem (fun d a hldw => hi d a (hldw ▸ hn)) s m
      have hw : i.WellFormed (s.withPending rest).config := wellFormed_of_exec_next he
      obtain rfl := eq_apply_of_exec he
      refine ⟨_, hstep.trans (exec_eq_effect hw), ?_, ?_, rfl, rfl, rfl⟩
      · exact congrArg (Effect.onRegs i.op0.toNat s.x) heffect
      · exact congrArg (some ∘ Effect.result) heffect

/-! ## Where the machine stops (R6, R8, R102, R179) -/

/-- A transaction that finds no block to take it (log entry 5). -/
def State.LacksBlock (s : State) : Prop :=
  s.phase = .dropped ∧ ∃ t rest, s.pending = t :: rest ∧ ∀ ceiling size, t ≠ .construct ceiling size

/-- A `construct` with a ceiling or a size that is not legal (log entry 7). -/
def State.IllegalConstruct (s : State) : Prop :=
  ∃ ceiling size rest, s.pending = .construct ceiling size :: rest ∧
    ¬ (Config.LegalCeiling ceiling ∧ Config.LegalMemSize size)

/-- An `execute` of an instruction with an operand above the ceiling (log entry 6). -/
def State.UnvalidatedExecute (s : State) : Prop :=
  s.phase = .constructed ∧ ∃ i rest, s.pending = .execute i :: rest ∧ ¬ i.WellFormed s.config

theorem step_of_lacksBlock {s : State} (h : s.LacksBlock) : step s = .fault .noBlock := by
  obtain ⟨hphase, t, rest, hp, ht⟩ := h
  rw [step_of_pending hp]
  cases t with
  | construct ceiling size => exact absurd rfl (ht ceiling size)
  | _ => exact onBlock_dropped (s := s.withPending rest) _ hphase

theorem step_of_illegalConstruct {s : State} (h : s.IllegalConstruct) : step s = .refused .illegalConfiguration := by
  obtain ⟨ceiling, size, rest, hp, hl⟩ := h
  exact step_construct_of_illegal hl hp

theorem step_of_unvalidatedExecute {s : State} (h : s.UnvalidatedExecute) :
    step s = .refused .unvalidatedInstruction := by
  obtain ⟨hphase, i, rest, hp, hw⟩ := h
  rw [step_execute hphase hp]
  exact exec_of_not_wellFormed (s := s.withPending rest) hw

/-- Every transaction on a constructed block is one the host may submit, a `construct`, a `drop`, or an unvalidated `execute`. -/
theorem step_cases (s : State) :
    s.LacksBlock ∨ s.IllegalConstruct ∨ s.UnvalidatedExecute ∨ ∃ t, step s = .next t := by
  cases hp : s.pending with
  | nil => exact .inr (.inr (.inr ⟨s, idleStepChangesNothing s hp⟩))
  | cons t rest =>
    by_cases hc : ∃ ceiling size, t = .construct ceiling size
    · obtain ⟨ceiling, size, rfl⟩ := hc
      by_cases hl : Config.LegalCeiling ceiling ∧ Config.LegalMemSize size
      · exact .inr (.inr (.inr ⟨_, step_construct hl.1 hl.2 hp⟩))
      · exact .inr (.inl ⟨ceiling, size, rest, hp, hl⟩)
    · cases hphase : s.phase with
      | dropped => exact .inl ⟨hphase, t, rest, hp, fun ceiling size ht => hc ⟨ceiling, size, ht⟩⟩
      | constructed =>
        refine .inr (.inr ?_)
        have answers (ht : t.Submittable s.config) : ∃ u, step s = .next u := by
          obtain ⟨u, _, hu, _⟩ := step_completes_of_submittable hphase hp ht
          exact ⟨u, hu⟩
        cases t with
        | construct ceiling size => exact absurd ⟨ceiling, size, rfl⟩ hc
        | drop =>
          obtain ⟨u, hu, _⟩ := dropDiscardsTheBlock s rest hphase hp
          exact .inr ⟨u, hu⟩
        | execute i =>
          by_cases hw : i.WellFormed s.config
          · exact .inr (answers hw)
          · exact .inl ⟨hphase, i, rest, hp, hw⟩
        | _ => exact .inr (answers trivial)

/-- Settles O44: each of the three stops has its own answer, and the remaining case has a next state. -/
theorem theMachineStopsExactlyHere : Obligations.TheMachineStopsExactlyHere := by
  intro s
  refine ⟨fun f => ⟨fun hf => ?_, ?_⟩, fun r => ⟨fun hr => ?_, ?_⟩⟩
  · obtain ⟨hphase, hp⟩ | h | h | ⟨t, h⟩ := step_cases s
    · exact ⟨hphase, rfl, hp⟩
    · exact nomatch hf.symm.trans (step_of_illegalConstruct h)
    · exact nomatch hf.symm.trans (step_of_unvalidatedExecute h)
    · exact nomatch hf.symm.trans h
  · rintro ⟨hphase, rfl, hp⟩
    exact step_of_lacksBlock ⟨hphase, hp⟩
  · obtain h | h | h | ⟨t, h⟩ := step_cases s
    · exact nomatch hr.symm.trans (step_of_lacksBlock h)
    · exact .inl ⟨Host.Outcome.refused.inj (hr.symm.trans (step_of_illegalConstruct h)), h⟩
    · exact .inr ⟨Host.Outcome.refused.inj (hr.symm.trans (step_of_unvalidatedExecute h)), h⟩
    · exact nomatch hr.symm.trans h
  · rintro (⟨rfl, h⟩ | ⟨rfl, h⟩)
    · exact step_of_illegalConstruct h
    · exact step_of_unvalidatedExecute h

/-- A queue that meets no stop runs to its end: each transaction answers, and leaves an operable block to the next. -/
theorem run_queue : ∀ (q : List Transaction) (s : State), s.pending = q → s.Operable →
    (∀ t ∈ q, t.Submittable s.config) →
    ∃ u, run q.length s = .next u ∧ u.pending = [] ∧ u.Operable ∧ u.config = s.config
  | [], s, hp, ho, _ => ⟨s, run_zero s, hp, ho, rfl⟩
  | t :: rest, s, hp, ho, hq => by
    obtain ⟨ht, hrest⟩ := List.forall_mem_cons.1 hq
    obtain ⟨u, _, hu, _, hconfig, hphase, hpending⟩ := step_completes_of_submittable ho.2 hp ht
    have huo : u.Operable := ⟨stepKeepsTheInvariant s u ho.1 hu, hphase.trans ho.2⟩
    have hconfig : u.config = s.config := hconfig
    obtain ⟨v, hv, hend, hvo, hvconfig⟩ := run_queue rest u hpending huo (hconfig ▸ hrest)
    exact ⟨v, (run_succ _ hu).trans hv, hend, hvo, hvconfig.trans hconfig⟩

/-- Settles O46. -/
theorem everyProgramRunsToItsEnd : Obligations.EveryProgramRunsToItsEnd :=
  fun s ho hq => run_queue s.pending s rfl ho hq

end Sys2Proof.Machine

/-! # Two transactions in a row (spec/42_load_store.md R147, spec/70_reset_and_hazards.md section 3)

The first transaction leaves a state that the second works on, named here for each of the two ways an instruction completes. -/

namespace Sys2Proof.Machine

theorem run_one (s : State) : run 1 s = step s := by
  rw [run]
  cases step s <;> rfl

/-- Two steps are the step of the state that the first one leaves. -/
theorem run_two {s t : State} (h : step s = .next t) : run 2 s = step t := (run_succ 1 h).trans (run_one t)

/-! ## The state after a write or a store -/

/-- The block after a completed write of register n, with the queue q still to come. -/
def State.afterWrite (s : State) (q : List Transaction) (n : Nat) (v : Word) : State :=
  ((s.withPending q).writeReg n v).answer (.ok .unit)

/-- The block after a completed store at address a, with the queue q still to come. -/
def State.afterStore (s : State) (q : List Transaction) (a : Nat) (b : Byte) : State :=
  ((s.withPending q).withMem (s.mem.write a b)).answer (.ok .unit)

@[simp] theorem State.afterStore_reg (s : State) (q : List Transaction) (a : Nat) (b : Byte) (n : Nat) :
    (s.afterStore q a b).reg n = s.reg n := rfl

section After

variable {s : State} {t : Transaction} {q : List Transaction}

theorem State.Operable.afterWrite (ho : s.Operable) (q : List Transaction) (n : Nat) (v : Word) :
    (s.afterWrite q n v).Operable :=
  ⟨((ho.withPending q).inv_writeReg n v).answer _, ho.2⟩

theorem State.Operable.afterStore (ho : s.Operable) (q : List Transaction) {a : Nat} (ha : a < s.config.memSize)
    (b : Byte) : (s.afterStore q a b).Operable :=
  ⟨((ho.withPending q).inv_store ha b).answer _, ho.2⟩

theorem step_of_writes {i : Instr} {v : Word} (ho : s.Operable) (hp : s.pending = t :: q) (hr : t.Runs s.config i)
    (hw : i.WellFormed s.config) (hv : s.Writes i v) : step s = .next (s.afterWrite q i.op0.toNat v) :=
  (step_of_runs ho.2 hp hr).trans (exec_of_writes (s := s.withPending q) hw hv)

theorem step_of_stw {k a : RegIdx} (ho : s.Operable) (hp : s.pending = t :: q) (hr : t.Runs s.config (.stw k a))
    (hw : (Instr.stw k a).WellFormed s.config) (hls : s.config.loadStoreEnabled = true)
    (hb : (s.reg a.toNat).toNat < s.config.memSize) :
    step s = .next (s.afterStore q (s.reg a.toNat).toNat (lowByte (s.reg k.toNat))) :=
  (step_of_runs ho.2 hp hr).trans (execStw_in_bounds (s := s.withPending q) hw.1 hw.2 hls hb)

theorem afterWrite_reg_self (ho : s.Operable) (q : List Transaction) {d : RegIdx} (hd : s.config.RegInRange d) (v : Word) :
    (s.afterWrite q d.toNat v).reg d.toNat = v :=
  s.writeReg_reg_self _ v (ho.lt_length hd)

theorem afterStore_byte_self (ho : s.Operable) (q : List Transaction) (a : Nat) (b : Byte) :
    (s.afterStore q a b).byte a = b :=
  Memory.read_write_self a b ho.1.mem_canonical

/-- An STW in bounds with its byte and its frame (R145, R146). -/
theorem exec_result_of_stw {k a : RegIdx} (ho : s.Operable) (hw : (Instr.stw k a).WellFormed s.config)
    (hls : s.config.loadStoreEnabled = true) (hb : (s.reg a.toNat).toNat < s.config.memSize) :
    ∃ t, exec (.stw k a) s = .next t ∧ t.byte (s.reg a.toNat).toNat = lowByte (s.reg k.toNat) ∧ SameRegs s t ∧
      SameBytesExcept (s.reg a.toNat).toNat s t ∧ SameHost s t ∧ t.result = some (.ok .unit) :=
  ⟨s.afterStore s.pending _ _, execStw_in_bounds hw.1 hw.2 hls hb, afterStore_byte_self ho _ _ _,
    (sameRegs_withMem s _).answer _, (sameBytesExcept_withMem_write s _ _).answer _, (sameHost_withMem s _).answer _, rfl⟩

end After

/-! ## The statements -/

/-- An STW and then an LDW at the same address load the low byte that was stored, each submitted in either form. -/
theorem run_stw_ldw {s : State} {t₁ t₂ : Transaction} {rest : List Transaction} {k a d b : RegIdx} (ho : s.Operable)
    (hp : s.pending = t₁ :: t₂ :: rest) (hstw : (Instr.stw k a).WellFormed s.config)
    (hldw : (Instr.ldw d b).WellFormed s.config) (h₁ : t₁.Runs s.config (.stw k a)) (h₂ : t₂.Runs s.config (.ldw d b))
    (hls : s.config.loadStoreEnabled = true) (hb : (s.reg a.toNat).toNat < s.config.memSize)
    (hab : s.reg b.toNat = s.reg a.toNat) :
    ∃ t, run 2 s = .next t ∧ t.reg d.toNat = zext32 (lowByte (s.reg k.toNat)) ∧ SameRegsExcept d.toNat s t ∧
      SameBytesExcept (s.reg a.toNat).toNat s t ∧ SameHost (s.withPending rest) t ∧ t.result = some (.ok .unit) := by
  have hrun : run 2 s = exec (.ldw d b) (s.afterStore rest (s.reg a.toNat).toNat (lowByte (s.reg k.toNat))) :=
    (run_two (step_of_stw ho hp h₁ hstw hls hb)).trans (step_of_runs (by exact ho.2) rfl h₂)
  have hb' : (s.reg b.toNat).toNat < s.config.memSize := hab ▸ hb
  obtain ⟨t, ht, hreg, hregs, hbytes, hhost, hok⟩ :=
    exec_result_of_writes (ho.afterStore rest hb _) (writes_ldw d hls hb') hldw
  refine ⟨t, hrun.trans ht, hreg.trans ?_, hregs, fun c hc => (hbytes c).trans ?_, hhost, hok⟩
  · rw [State.afterStore_reg, hab, afterStore_byte_self ho]
  · exact Memory.read_write_other _ hc s.mem

/-- Settles O32: the load of `run_stw_ldw`, both by the one address register. -/
theorem storeThenLoadRoundTrips : Obligations.StoreThenLoadRoundTrips := by
  intro s v a d rest ho hv ha hd hls hb hp
  obtain ⟨t, ht, hreg, hregs, hbytes, ⟨hconfig, hphase, hpending⟩, hok⟩ :=
    run_stw_ldw ho hp ⟨hv, ha⟩ ⟨hd, ha⟩ (.inl rfl) (.inl rfl) hls hb rfl
  refine ⟨t, ht, ?_, hregs, hbytes, hpending, hconfig, hphase, hok⟩
  rw [hreg, zext32_toNat, lowByte_toNat]

/-- Settles O51: the reader runs on the state the writer leaves, with its own transaction taken off the queue. -/
theorem nextTransactionSeesTheWrite : Obligations.NextTransactionSeesTheWrite := by
  intro s t₁ t₂ rest ho hp
  refine ⟨fun i j v hi hj h₁ h₂ hv => ?_, fun i v index hi h₁ hv ht₂ hindex => ?_, fun k a d b hstw hldw h₁ h₂ hls hb hab => ?_⟩
  · have huo := ho.afterWrite rest i.op0.toNat v
    have hrun : run 2 s = exec j (s.afterWrite rest i.op0.toNat v) :=
      (run_two (step_of_writes ho hp h₁ hi hv)).trans (step_of_runs (by exact ho.2) rfl h₂)
    refine ⟨s.afterWrite rest i.op0.toNat v, afterWrite_reg_self ho rest hi.1 v, sameRegsExcept_writeReg s i.op0.toNat v,
      sameBytes_writeReg s i.op0.toNat v, rfl, rfl, rfl, hrun, fun w hw => ?_, ?_⟩
    · rw [hrun]
      exact exec_result_of_writes huo hw hj
    · rintro k a rfl hls hb
      rw [hrun]
      exact exec_result_of_stw huo hj hls hb
  · subst ht₂
    have hread := step_registerRead (s := s.afterWrite (.registerRead index :: rest) i.op0.toNat v) ho.2 rfl
    refine ⟨_, (run_two (step_of_writes ho hp h₁ hi hv)).trans hread, ?_⟩
    have hinRange : i.op0.toNat ≤ (s.afterWrite (.registerRead index :: rest) i.op0.toNat v).config.regCeiling := hi.1
    rw [State.answer_result, hindex, if_pos hinRange, afterWrite_reg_self ho _ hi.1]
  · obtain ⟨t, ht, hreg, -, -, -, hok⟩ := run_stw_ldw ho hp hstw hldw h₁ h₂ hls hb hab
    exact ⟨t, ht, hreg, hok⟩

end Sys2Proof.Machine
